-- ==== Sys2Proof/Word.lean ====
section
/-! DEFINITION. The word types of the block: the widths of 00_scope.md R7 and 30_encoding.md R71. -/

namespace Sys2Proof

/-- One 32-bit location of the register bus (R7, R51). -/
abbrev Word := BitVec 32

/-- An 18-bit word address of the register bus (R7, R51). -/
abbrev BusAddr := BitVec 18

/-- One bus transaction in the 51-bit `BUS` format (R71). -/
abbrev BusWord := BitVec 51

/-- The content of one `IBUF` cell: a byte or one Unicode code point (R7, R12, R34). -/
abbrev CharCell := BitVec 21

/-- The content of one `OBUF` cell (R35). -/
abbrev Byte := BitVec 8

/-- A base-85 digit value as the datapaths carry it, 7 bits (R7). -/
abbrev Digit := BitVec 7

/-- The 7-bit ASCII code `AROM` stores for a digit (R36). -/
abbrev AsciiCode := BitVec 7

end Sys2Proof
end

