-- ==== Sys2Proof/Config.lean ====
section
/-! DEFINITION. What an implementation fixes (the parameter `CAP`, R6, R43) and the values the spec leaves free
(93_implementation_defined.md U1, U2, U3). -/

namespace Sys2Proof

/-- The open parameter of the block (00_scope.md R6, R43; 93 U18). It is carried in State because the host's `step`
takes a State and nothing else; no step changes it (log 3). -/
structure Config where
  /-- `CAP`: the number of cells of `IBUF`. -/
  cap : Nat
  deriving DecidableEq, Repr

/-- The values R6 allows: a multiple of 20 with `20 <= CAP <= 65520`. -/
abbrev Config.Legal (c : Config) : Prop := c.cap % 20 = 0 ∧ 20 ≤ c.cap ∧ c.cap ≤ 65520

/-- The number of cells of `OBUF` (R6, R35). -/
def Config.obufCells (c : Config) : Nat := 5 * c.cap / 4

/-- The reference value of the spec's own vectors, `CAP = 1000` (R6). -/
def Config.reference : Config := ⟨1000⟩

/-- FREE VALUE (U1, log 4): what cell `i` of `IBUF` holds before the host's first write to it, for each power-on. -/
opaque Config.ibufPowerOn (epoch i : Nat) : CharCell

/-- FREE VALUE (U2, log 5): what cell `j` of `OBUF` holds before the block's first write to it, for each time its
content became unspecified. -/
opaque Config.obufUnspecified (epoch j : Nat) : Byte

/-- FREE VALUE (U3, log 6): the output of the `AROM` read port for an address above 84. -/
opaque Config.aromUnused (d : Digit) : AsciiCode

end Sys2Proof
end

