-- ==== Sys2Proof/Syntax.lean ====
section
/-! DEFINITION. The instructions: one constructor per row of spec/opcode_table.json (30_encoding.md R70, R73). -/

namespace Sys2Proof

/-- What the host can ask of the block in one transaction. `rd` and `wr` are the two forms of the `BUS` format; the
other four are the `CMD` words, each carried by a write to `CMD` (R70). -/
inductive Instr where
  /-- `RD`: bus read of a word address (R160). `wdata` is ignored in a read (R71) and is no operand. -/
  | rd (addr : BusAddr)
  /-- `WR`: bus write of a word address (R161). A write to address 0 whose data is a command word is spelled by the
  command's own constructor; with reserved data it is this row (R74). -/
  | wr (addr : BusAddr) (wdata : Word)
  /-- `ENC`: `CMD` word 1 (R118). -/
  | enc
  /-- `DEC`: `CMD` word 2 (R141). -/
  | dec
  /-- `CHROF`: `CMD` word 3 (R98). -/
  | chrof
  /-- `VALOF`: `CMD` word 4 (R99). -/
  | valof
  deriving DecidableEq, Repr

end Sys2Proof
end

