-- ==== Sys2Proof/WellFormed.lean ====
section
/-! DEFINITION. Which terms of Instr the decoder produces (30_encoding.md R70 to R74). -/

namespace Sys2Proof

/-- A `CMD` word that selects a command (R73): 1, 2, 3 or 4 on all 32 bits. -/
def isCommandWord (w : Word) : Bool := 1 ≤ w.toNat && w.toNat ≤ 4

/-- The field widths are in the types. The one check left: a write to `CMD` of a word that selects a command is that
command, and is written with the command's constructor (R70, log 10). -/
def Instr.wellFormed : Instr → Bool
  | .rd _ => true
  | .wr addr wdata => !(addr == 0 && isCommandWord wdata)
  | .enc => true
  | .dec => true
  | .chrof => true
  | .valof => true

end Sys2Proof
end

