-- ==== Sys2Proof/Decode.lean ====
section
/-! DEFINITION. Decoding and encoding of the two formats (30_encoding.md R70 to R75): 51-bit `BUS` transactions, and
the 32-bit `CMD` words carried inside writes to address 0. -/

namespace Sys2Proof

/-- Bit [50], `we` (R71). -/
def busWe (w : BusWord) : Bool := w.getLsbD 50

/-- Bits [49:32], `addr` (R71). -/
def busAddr (w : BusWord) : BusAddr := w.extractLsb' 32 18

/-- Bits [31:0], `wdata` (R71). -/
def busData (w : BusWord) : Word := w.extractLsb' 0 32

/-- The 51-bit tuple with `we` most significant (R71). -/
def busWord (we : Bool) (addr : BusAddr) (wdata : Word) : BusWord := BitVec.ofBool we ++ addr ++ wdata

/-- Bits [31:4] of a `CMD` word, `ZERO` (R72). -/
def cmdZero (w : Word) : BitVec 28 := w.extractLsb' 4 28

/-- Bits [3:0] of a `CMD` word, `CODE` (R72). -/
def cmdCode (w : Word) : BitVec 4 := w.extractLsb' 0 4

/-- Why a `CMD` word selects no command (R74). -/
inductive ReservedCmd where
  /-- `ZERO != 0`, whatever `CODE` is. -/
  | zeroFieldSet
  /-- `ZERO = 0` and `CODE` is 0 or 5 to 15. -/
  | codeUnassigned
  deriving DecidableEq, Repr

/-- Decoding of a `CMD` word (R72, R73, R74): total, and a reserved word is rejected by name. -/
def decodeCmd (w : Word) : Except ReservedCmd Instr :=
  if cmdZero w ≠ 0 then .error .zeroFieldSet
  else if cmdCode w = 1 then .ok .enc
  else if cmdCode w = 2 then .ok .dec
  else if cmdCode w = 3 then .ok .chrof
  else if cmdCode w = 4 then .ok .valof
  else .error .codeUnassigned

/-- The instruction a write carries: the `CMD` word is decoded when the address is 0 (R70). A reserved word stays a
plain write, which executes as a refused command (R74). -/
def decodeWrite (addr : BusAddr) (wdata : Word) : Instr :=
  if addr = 0 then
    match decodeCmd wdata with
    | .ok i => i
    | .error _ => .wr addr wdata
  else .wr addr wdata

/-- Decoding of a `BUS` transaction (R70, R71): every 51-bit word is one of the six instructions. -/
def decode (w : BusWord) : Instr :=
  if busWe w then decodeWrite (busAddr w) (busData w) else .rd (busAddr w)

/-- The `CMD` words of R73. -/
def cmdWord : Instr → Option Word
  | .enc => some 1
  | .dec => some 2
  | .chrof => some 3
  | .valof => some 4
  | .rd _ => none
  | .wr _ _ => none

/-- The `BUS` word of an instruction (R71, R73, R78: a read is written with `wdata = 0`). -/
def encode : Instr → BusWord
  | .rd addr => busWord false addr 0
  | .wr addr wdata => busWord true addr wdata
  | .enc => busWord true 0 1
  | .dec => busWord true 0 2
  | .chrof => busWord true 0 3
  | .valof => busWord true 0 4

/-- Why a number is no word of either format. -/
inductive DecodeError where
  /-- It has a bit above the format's most significant bit. -/
  | tooWide
  deriving DecidableEq, Repr

/-- The transaction that carries a word of the opcode table (log 11): a word of at most 32 bits is a `CMD` word, carried
by a write to address 0 (R70); a longer one is the `BUS` tuple itself. -/
def tableTransaction (nbits w : Nat) : Except DecodeError BusWord :=
  if nbits ≤ 32 then
    if w < 2 ^ 32 then .ok (busWord true 0 (BitVec.ofNat 32 w)) else .error .tooWide
  else
    if w < 2 ^ 51 then .ok (BitVec.ofNat 51 w) else .error .tooWide

/-- What the decoder reads from a word numbered as spec/opcode_table.json numbers it. -/
def decodeTableWord (nbits w : Nat) : Option Instr :=
  match tableTransaction nbits w with
  | .ok t => some (decode t)
  | .error _ => none

end Sys2Proof
end

