-- ==== Sys2Proof/Machine/State.lean ====
section
/-! DEFINITION. The state of the block (10_state.md R20 to R43), the events of its input, its responses, and the state
right after power-on and reset. Plain data throughout. -/

namespace Sys2Proof.Machine

/-- `STATUS.KIND` (R26, R180). -/
inductive Kind where
  /-- 0: the last command completed, or none has run. -/
  | ok
  /-- 1: the length is not a multiple of 4 (`ENC`) or 5 (`DEC`). -/
  | invalidLength
  /-- 2: `DEC` met a character outside the alphabet. -/
  | invalidCharacter
  /-- 3: the request is outside what the interface can express. -/
  | refused
  deriving DecidableEq, Repr

/-- The fields of `RES` (R33); all other bits of the register read as 0. -/
structure Res where
  /-- `VALUE`, bits [6:0]. -/
  value : BitVec 7
  /-- `FOUND`, bit [8]. -/
  found : Bool
  deriving DecidableEq, Repr

/-- Five base-85 digit values, `d0` most significant: `DIG[0..4]` (R38, R114). -/
structure Digits where
  d0 : Digit
  d1 : Digit
  d2 : Digit
  d3 : Digit
  d4 : Digit
  deriving DecidableEq, Repr

/-- The working registers of `SEQ`, `ENCDP` and `DECDP` (R38), not host-visible. -/
structure Work where
  /-- `POS`: index in the view of the cell being processed. -/
  pos : BitVec 17
  /-- `GI`: place inside the current group. -/
  gi : BitVec 3
  /-- `GV`: the group value being packed, then the remainder of the digit generator. -/
  gv : Word
  /-- `DIG[0..4]`: the digit values of the group. -/
  dig : Digits
  /-- `ACC`: the Horner accumulator. -/
  acc : Word
  /-- `ERRL`: the first invalid character has been latched. -/
  errl : Bool
  deriving DecidableEq, Repr

/-- The working registers in State.reset: DESIGN CHOICE, the spec leaves them unspecified and unobservable
(R41, U4, log 7). -/
def Work.zero : Work :=
  { pos := 0, gi := 0, gv := 0, dig := ⟨0, 0, 0, 0, 0⟩, acc := 0, errl := false }

/-- What the outside world does to the block, in order (R43, R51, R210, R211; log 1, log 12). -/
inductive HostEvent where
  /-- One bus transaction, any 51-bit word (R71). -/
  | transaction (w : BusWord)
  /-- Reset applied between transactions (R210). -/
  | reset
  /-- A write of `wdata` to `CMD` whose command is cut short by reset (R211). -/
  | resetDuringCommand (wdata : Word)
  /-- Power removed and restored, with reset (R210: after power-on `IBUF` and `OBUF` are unspecified). -/
  | powerOn
  deriving DecidableEq, Repr

/-- The answer to one bus transaction (R51, R71). -/
inductive Response where
  /-- `ok(rdata)`, the answer to a read. -/
  | data (rdata : Word)
  /-- `ok`, the answer to a write. -/
  | ack
  /-- `buserr`: no state changed (R60, R162). -/
  | buserr
  deriving DecidableEq, Repr

/-- How a run can end in a fault: never. The spec gives every transaction in every state a response and a next state
(93_implementation_defined.md section 1), so this type is empty (log 14; safe). -/
inductive Fault where
  deriving DecidableEq, Repr

/-- Why the model gives an instruction no meaning. -/
inductive Refusal where
  /-- Raised only by an arm of exec whose instruction has no meaning yet; no arm is left so (log 14; safe). -/
  | notModelled (mnemonic : String)
  deriving DecidableEq, Repr

/-- A buffer: pairs of index and content, strictly rising, of the cells that have been written. An unlisted cell has
never been written, and what it holds is a free value (log 4, log 5). -/
abbrev Memory (w : Nat) := List (Nat × BitVec w)

/-- Everything the spec gives the machine (10_state.md; INVENTORY.md lists each field with its rule). -/
structure State where
  /-- The parameter `CAP` (R6, R43); no step changes it. -/
  config : Config
  /-- `STATUS.KIND` (R26). -/
  kind : Kind
  /-- `OFF` (R24). -/
  off : Word
  /-- `LEN` (R25). -/
  len : Word
  /-- `OLEN` (R27). -/
  olen : Word
  /-- `ELEN` (R28). -/
  elen : Word
  /-- `EMULT` (R29). -/
  emult : Word
  /-- `ECHAR.CP` (R30). -/
  echar : CharCell
  /-- `EPOS` (R31). -/
  epos : Word
  /-- `ARG` (R32). -/
  arg : Word
  /-- `RES` (R33). -/
  res : Res
  /-- `IBUF` (R34): the cells the host has written since power-on. -/
  ibuf : Memory 21
  /-- `OBUF` (R35): the cells the block has written since the content was last unspecified. -/
  obuf : List Host.Cell
  /-- The working registers (R38). -/
  work : Work
  /-- MODEL's own field: which power-on the free content of `ibuf` belongs to (log 4). -/
  ibufEpoch : Nat
  /-- MODEL's own field: how often the content of `obuf` became unspecified (log 5). -/
  obufEpoch : Nat
  /-- The host's events not yet taken, the next one first (R43, log 1). -/
  input : List HostEvent
  /-- The responses given, the newest first (R43, log 2). -/
  output : List Response
  deriving DecidableEq, Repr

/-- The state after power-on and reset (R41, R210): every host register 0, nothing written to the buffers, no
transaction pending. `CAP` is the reference value (log 3). -/
def State.reset : State where
  config := Config.reference
  kind := .ok
  off := 0
  len := 0
  olen := 0
  elen := 0
  emult := 0
  echar := 0
  epos := 0
  arg := 0
  res := ⟨0, false⟩
  ibuf := []
  obuf := []
  work := Work.zero
  ibufEpoch := 0
  obufEpoch := 0
  input := []
  output := []

end Sys2Proof.Machine
end

