-- ==== Sys2Proof/Machine/Ops.lean ====
section
/-! DEFINITION. The named operations over the buffers and registers: reading and writing a cell, the command prologue,
raising an outcome, ending a command, the sequencer's counters, reset, and taking the next event. -/

namespace Sys2Proof.Machine

/-! ### Buffers -/

/-- The cells are listed by strictly rising index. An unlisted index reads as "never written", which no entry can
say, so equal buffers are equal lists (log 4). -/
def Memory.wf {w : Nat} : Memory w → Bool
  | [] => true
  | [_] => true
  | (i, _) :: (j, y) :: m => decide (i < j) && Memory.wf ((j, y) :: m)

/-- What was last written to cell `i`; none if nothing was. -/
def Memory.read {w : Nat} : Memory w → Nat → Option (BitVec w)
  | [], _ => none
  | (j, x) :: m, i => if i = j then some x else Memory.read m i

/-- Replace one cell (`MemWrite`, R10), keeping the canonical form. -/
def Memory.write {w : Nat} : Memory w → Nat → BitVec w → Memory w
  | [], i, v => [(i, v)]
  | (j, x) :: m, i, v =>
    if i < j then (i, v) :: (j, x) :: m
    else if i = j then (i, v) :: m
    else (j, x) :: Memory.write m i v

/-- `MemRead(IBUF, i)` (R10): the 21-bit content of a cell, a free value where the host never wrote it (U1, R214). -/
def State.ibufCell (s : State) (i : Nat) : CharCell :=
  (Memory.read s.ibuf i).getD (Config.ibufPowerOn s.ibufEpoch i)

/-- `MemRead(OBUF, j)` (R10): the 8-bit content of a cell, a free value where the block never wrote it (U2). -/
def State.obufCell (s : State) (j : Nat) : Byte :=
  (Memory.read s.obuf j).getD (Config.obufUnspecified s.obufEpoch j)

/-- `MemWrite(IBUF, i, v)`. -/
def State.writeIbuf (s : State) (i : Nat) (v : CharCell) : State :=
  { s with ibuf := Memory.write s.ibuf i v }

/-- `MemWrite(OBUF, j, v)`. -/
def State.writeObuf (s : State) (j : Nat) (v : Byte) : State :=
  { s with obuf := Memory.write s.obuf j v }

/-! ### Transactions -/

/-- Give the answer to the transaction in progress (R43, R71). -/
def State.respond (s : State) (r : Response) : State :=
  { s with output := r :: s.output }

/-! ### Outcomes of a command -/

/-- The command prologue (R181): every result register is cleared; `OFF`, `LEN`, `ARG`, the buffers and the tables are
not touched. -/
def State.prologue (s : State) : State :=
  { s with
    kind := .ok
    olen := 0
    elen := 0
    emult := 0
    echar := 0
    epos := 0
    res := ⟨0, false⟩ }

/-- What a command can raise (R10, R180), with the record each carries. -/
inductive Raise where
  /-- `raise InvalidLength(LEN, multiple)` (R185). -/
  | invalidLength (multiple : Word)
  /-- `raise InvalidCharacter(c, position)` (R186). -/
  | invalidCharacter (c : CharCell) (position : Word)
  /-- `raise Refused` (R183): no record. -/
  | refused
  deriving DecidableEq, Repr

/-- Raising an outcome (R180, R183, R185, R186, R188): `STATUS.KIND` and the record registers are set and nothing else.
The prologue has run before, so `OLEN` is 0. No pc, status or mode is saved and no handler is entered (R188); there is
no return operation, since the next command's prologue clears the record (R189). -/
def State.raise (s : State) : Raise → State
  | .invalidLength multiple => { s with kind := .invalidLength, elen := s.len, emult := multiple }
  | .invalidCharacter c position => { s with kind := .invalidCharacter, echar := c, epos := position }
  | .refused => { s with kind := .refused }

/-- The end of a successful `ENC` or `DEC` (R118, R141): `OLEN` and `STATUS.KIND`. -/
def State.finish (s : State) (olen : Word) : State :=
  { s with olen := olen, kind := .ok }

/-- The end of a successful `CHROF` or `VALOF` (R98, R99): `RES` and `STATUS.KIND`. -/
def State.finishTable (s : State) (res : Res) : State :=
  { s with res := res, kind := .ok }

/-! ### The sequencer (R38, R39) -/

/-- What `SEQ` initialises at the start of a scan: `POS <- 0`, `GI <- 0`, `ERRL <- 0` (R39). `GV` and `ACC` are loaded
at the first cell of each group. -/
def State.beginScan (s : State) : State :=
  { s with work := { s.work with pos := 0, gi := 0, errl := false } }

/-- Advance to the next cell (R21, R38): `POS` by 1, `GI` modulo the group size. -/
def State.advance (s : State) (groupSize : Nat) : State :=
  { s with work := { s.work with
      pos := s.work.pos + 1
      gi := BitVec.ofNat 3 ((s.work.gi.toNat + 1) % groupSize) } }

/-- The first `n` cells of the view go through a cell step, one after another, until `ERRL` is set (R77, R131, R133). -/
def scan (cellStep : State → State) : Nat → State → State
  | 0, s => s
  | n + 1, s => if s.work.errl then s else scan cellStep n (cellStep s)

/-! ### Reset and power (R210, R211) -/

/-- Reset between transactions (R210): the host registers are those of R41, the buffers are not written, and the host's
stream and the responses already given are not the block's. The working registers are log 7's. -/
def State.applyReset (s : State) : State :=
  { State.reset with
    config := s.config
    ibuf := s.ibuf
    obuf := s.obuf
    ibufEpoch := s.ibufEpoch
    obufEpoch := s.obufEpoch
    input := s.input
    output := s.output }

/-- Reset during a command (R211): the reset state, with the content of `OBUF` unspecified; the `CMD` write gets no
acknowledgement. No command writes `IBUF`, so it is kept. -/
def State.applyResetDuringCommand (s : State) : State :=
  { s.applyReset with obuf := [], obufEpoch := s.obufEpoch + 1 }

/-- Power-on with reset (R210, U1, U2): the content of both buffers is unspecified. -/
def State.applyPowerOn (s : State) : State :=
  { s.applyReset with
    ibuf := []
    ibufEpoch := s.ibufEpoch + 1
    obuf := []
    obufEpoch := s.obufEpoch + 1 }

/-! ### The host's stream -/

/-- The next event and the state with it taken (R43, R64); none when the host asks nothing. -/
def State.takeEvent (s : State) : Option (HostEvent × State) :=
  match s.input with
  | [] => none
  | e :: rest => some (e, { s with input := rest })

/-- Put a transaction in front of the stream. -/
def State.pushTransaction (s : State) (w : BusWord) : State :=
  { s with input := .transaction w :: s.input }

end Sys2Proof.Machine
end

