-- ==== Sys2Proof/Machine/Tables.lean ====
section
/-! DEFINITION. The two tables (40_alphabet_tables.md R90 to R97, R101) over one listing of the alphabet. -/

namespace Sys2Proof.Machine

/-- The content of `AROM` in digit order, in the five columns of the table of R91 (log 9). -/
def alphabet : List AsciiCode :=
  [0x30, 0x31, 0x32, 0x33, 0x34, 0x35, 0x36, 0x37, 0x38, 0x39, 0x61, 0x62, 0x63, 0x64, 0x65, 0x66, 0x67] ++
  [0x68, 0x69, 0x6A, 0x6B, 0x6C, 0x6D, 0x6E, 0x6F, 0x70, 0x71, 0x72, 0x73, 0x74, 0x75, 0x76, 0x77, 0x78] ++
  [0x79, 0x7A, 0x41, 0x42, 0x43, 0x44, 0x45, 0x46, 0x47, 0x48, 0x49, 0x4A, 0x4B, 0x4C, 0x4D, 0x4E, 0x4F] ++
  [0x50, 0x51, 0x52, 0x53, 0x54, 0x55, 0x56, 0x57, 0x58, 0x59, 0x5A, 0x2E, 0x2D, 0x3A, 0x2B, 0x3D, 0x5E] ++
  [0x21, 0x2F, 0x2A, 0x3F, 0x26, 0x3C, 0x3E, 0x28, 0x29, 0x5B, 0x5D, 0x7B, 0x7D, 0x40, 0x25, 0x24, 0x23]

/-- The read port of `AROM` (R90): the character of a digit value. Above 84 no rule uses the output, and it is a free
value (R101, U3). -/
def charOf (d : Digit) : AsciiCode :=
  match alphabet[d.toNat]? with
  | some c => c
  | none => Config.aromUnused d

/-- The place of a character in a listing whose first entry has place `d`; the comparison is on all 21 bits (R96). -/
def placeOf (c : CharCell) : List AsciiCode → Nat → Option Nat
  | [], _ => none
  | a :: rest, d => if a.setWidth 21 = c then some d else placeOf c rest (d + 1)

/-- The read port of `IROM` (R93, R94): the digit value of a character, or none for "not found". -/
def valueOf (c : CharCell) : Option Digit :=
  (placeOf c alphabet 0).map (BitVec.ofNat 7)

end Sys2Proof.Machine
end

