-- ==== Sys2Proof/Machine/Operands.lean ====
section
/-! DEFINITION. How each operand is assembled from the bits that carry it (30_encoding.md R75, R76), the address map
(20_memory.md R52), and the arithmetic of one group (R113, R114, R134, R137). Nothing is sign-extended or scaled. -/

namespace Sys2Proof.Machine

/-! ### The view (R11, R55, R75) -/

/-- Whether the view fits in `IBUF` (R184): the sum is exact, with no wrap-around. -/
def State.viewFits (s : State) : Bool := s.off.toNat + s.len.toNat ≤ s.config.cap

/-- Character `k` of the view: all 21 bits of the cell (R75, R131). -/
def State.viewChar (s : State) (k : Nat) : CharCell := s.ibufCell (s.off.toNat + k)

/-- Byte `k` of the view: bits [7:0] of the cell, the rest ignored (R75, R112). -/
def State.viewByte (s : State) (k : Nat) : Byte := (s.viewChar k).setWidth 8

/-! ### The encoder datapath (R113, R114) -/

/-- One step of packing (R113): the byte enters below those already packed; the first of a group loads `GV` (R39). -/
def packByte (first : Bool) (gv : Word) (b : Byte) : Word :=
  if first then b.setWidth 32 else (gv <<< 8) ||| b.setWidth 32

/-- The digit generator (R114): successive division by 85^4, 85^3, 85^2, 85. -/
def digits (v : Word) : Digits :=
  let r0 := v.toNat
  let r1 := r0 % 52200625
  let r2 := r1 % 614125
  let r3 := r2 % 7225
  let r4 := r3 % 85
  { d0 := BitVec.ofNat 7 (r0 / 52200625)
    d1 := BitVec.ofNat 7 (r1 / 614125)
    d2 := BitVec.ofNat 7 (r2 / 7225)
    d3 := BitVec.ofNat 7 (r3 / 85)
    d4 := BitVec.ofNat 7 r4 }

/-- The `OBUF` cell a character fills: its code, zero-extended (R76, R117). -/
def charByte (d : Digit) : Byte := (charOf d).setWidth 8

/-! ### The decoder datapath (R134, R137) -/

/-- One step of the Horner accumulator (R134): load at the first digit of a group, else `(ACC*85 + d) mod 2^32`. -/
def hornerStep (first : Bool) (acc : Word) (d : Digit) : Word :=
  if first then d.setWidth 32 else acc * 85 + d.setWidth 32

/-- Byte `k` of a group value, byte 0 being bits [31:24] (R53, R137). -/
def groupByte (v : Word) (k : Nat) : Byte := v.extractLsb' (8 * (3 - k)) 8

/-! ### The bus (R52, R75) -/

/-- The locations of the register bus space. The two windows carry their index; what of them exists is decided by `CAP`
and `OLEN` at the access. -/
inductive Loc where
  | cmd | status | off | len | olen | elen | emult | echar | epos | arg | res
  /-- The `IBUF` window, 0x10000 to 0x1FFFF. -/
  | ibuf (i : Nat)
  /-- The `OBUF` window, 0x20000 to 0x3FFFF. -/
  | obuf (j : Nat)
  | unmapped
  deriving DecidableEq, Repr

/-- The address map (R52). -/
def locate (addr : BusAddr) : Loc :=
  let a := addr.toNat
  if a = 0x00000 then .cmd
  else if a = 0x00001 then .status
  else if a = 0x00002 then .off
  else if a = 0x00003 then .len
  else if a = 0x00004 then .olen
  else if a = 0x00005 then .elen
  else if a = 0x00006 then .emult
  else if a = 0x00007 then .echar
  else if a = 0x00008 then .epos
  else if a = 0x00009 then .arg
  else if a = 0x0000A then .res
  else if a < 0x10000 then .unmapped
  else if a < 0x20000 then .ibuf (a - 0x10000)
  else .obuf (a - 0x20000)

/-- Whether bus data fits an `IBUF` cell: bits [31:21] are 0 (R75, R163). -/
def fitsCell (w : Word) : Bool := w.extractLsb' 21 11 = 0

/-- The cell content carried by bus data, bits [20:0] (R75, R163). -/
def cellOf (w : Word) : CharCell := w.extractLsb' 0 21

end Sys2Proof.Machine
end

