-- ==== Sys2Proof/Machine/Flags.lean ====
section
/-! DEFINITION. The flags (10_state.md R40): `STATUS.KIND` and `RES.FOUND`, and the words in which the host reads the
registers that hold them. There are no arithmetic flags; in particular the accumulator's wrap sets none (R40, R136). -/

namespace Sys2Proof.Machine

/-- The code of an outcome (R26). -/
def Kind.code : Kind → BitVec 2
  | .ok => 0
  | .invalidLength => 1
  | .invalidCharacter => 2
  | .refused => 3

/-- `STATUS` as read: `KIND` in bits [1:0], zeros above (R26). -/
def State.statusWord (s : State) : Word := s.kind.code.setWidth 32

/-- `RES` as read: `VALUE` in bits [6:0], bit [7] zero, `FOUND` in bit [8], zeros above (R33). -/
def Res.word (r : Res) : Word := (BitVec.ofBool r.found ++ (0 : BitVec 1) ++ r.value).setWidth 32

/-- `ECHAR` as read: `CP` in bits [20:0], zeros above (R30). -/
def State.echarWord (s : State) : Word := s.echar.setWidth 32

/-- What `CHROF` puts in `RES` for a digit value (R98): the character's code, `FOUND = 1`. -/
def resOfDigit (d : Digit) : Res := ⟨charOf d, true⟩

/-- What `VALOF` puts in `RES` for a character (R99): the digit value and `FOUND = 1`, or zero for "not found". -/
def resOfChar (c : CharCell) : Res :=
  match valueOf c with
  | some d => ⟨d, true⟩
  | none => ⟨0, false⟩

end Sys2Proof.Machine
end

