-- ==== Sys2Proof/Machine/Decoder.lean ====
section
/-! DEFINITION. `DECDP` and the command `DEC` (42_decoder.md R130 to R141, R147). -/

namespace Sys2Proof.Machine

/-- Unpacking of group `g` (R137): four bytes, bits [31:24] at the lowest index. -/
def emitBytes (s : State) (g : Nat) (v : Word) : State :=
  (((s.writeObuf (4 * g) (groupByte v 0)).writeObuf (4 * g + 1) (groupByte v 1)).writeObuf (4 * g + 2)
    (groupByte v 2)).writeObuf (4 * g + 3) (groupByte v 3)

/-- The first invalid character (R133): the record is latched, `ERRL` stops the scan, and the command's outcome is
`InvalidCharacter` with the 1-based position. -/
def latchInvalid (s : State) (c : CharCell) : State :=
  let s := s.raise (.invalidCharacter c (BitVec.ofNat 32 (s.work.pos.toNat + 1)))
  { s with work := { s.work with errl := true } }

/-- One digit into the accumulator (R134), and the unpacker after the fifth of a group (R137). -/
def accumulate (s : State) (d : Digit) : State :=
  let s : State := { s with work := { s.work with acc := hornerStep (s.work.gi = 0) s.work.acc d } }
  if s.work.gi = 4 then emitBytes s (s.work.pos.toNat / 5) s.work.acc else s

/-- One cell of the view through the decoder (R131, R132, R133). -/
def decodeCell (s : State) : State :=
  let c := s.viewChar s.work.pos.toNat
  match valueOf c with
  | none => latchInvalid s c
  | some d => (accumulate s d).advance 5

/-- `DEC` (R141), from prologue to end, in the order of R147 and R187: capacity check, length check, scan. -/
def decCommand (s : State) : State :=
  let s := s.prologue
  if !s.viewFits then s.raise .refused
  else if s.len.toNat % 5 ≠ 0 then s.raise (.invalidLength 5)
  else
    let t := scan decodeCell s.len.toNat s.beginScan
    if t.work.errl then t else t.finish (BitVec.ofNat 32 (s.len.toNat / 5 * 4))

/-- The transaction that runs `DEC`, acknowledged when the command has ended (R165). -/
def execDec (s : State) : Host.Outcome State Fault Refusal := .next ((decCommand s).respond .ack)

end Sys2Proof.Machine
end

