-- ==== Sys2Proof/Machine/Encoder.lean ====
section
/-! DEFINITION. `ENCDP` and the command `ENC` (41_encoder.md R110 to R118). -/

namespace Sys2Proof.Machine

/-- Character emission of group `g` (R117): five reads of `AROM`, the first character at the lowest index. -/
def emitChars (s : State) (g : Nat) (d : Digits) : State :=
  ((((s.writeObuf (5 * g) (charByte d.d0)).writeObuf (5 * g + 1) (charByte d.d1)).writeObuf (5 * g + 2)
    (charByte d.d2)).writeObuf (5 * g + 3) (charByte d.d3)).writeObuf (5 * g + 4) (charByte d.d4)

/-- The end of a group (R114, R117): the digit generator runs on `GV`, its digits go to `DIG` and, through `AROM`, to
`OBUF`; the remainder of the last division is left in `GV` (R38, log 8). -/
def encodeGroup (s : State) : State :=
  let d := digits s.work.gv
  let s := emitChars s (s.work.pos.toNat / 4) d
  { s with work := { s.work with dig := d, gv := d.d4.setWidth 32 } }

/-- One cell of the view through the encoder (R111, R112, R113): the byte is packed into `GV`, and the fourth of a group
completes it. -/
def encodeCell (s : State) : State :=
  let b := s.viewByte s.work.pos.toNat
  let packed : State := { s with work := { s.work with gv := packByte (s.work.gi = 0) s.work.gv b } }
  let done := if s.work.gi = 3 then encodeGroup packed else packed
  done.advance 4

/-- `ENC` (R118), from prologue to end: capacity check, length check, group loop. -/
def encCommand (s : State) : State :=
  let s := s.prologue
  if !s.viewFits then s.raise .refused
  else if s.len.toNat % 4 ≠ 0 then s.raise (.invalidLength 4)
  else (scan encodeCell s.len.toNat s.beginScan).finish (BitVec.ofNat 32 (s.len.toNat / 4 * 5))

/-- The transaction that runs `ENC`, acknowledged when the command has ended (R165). -/
def execEnc (s : State) : Host.Outcome State Fault Refusal := .next ((encCommand s).respond .ack)

end Sys2Proof.Machine
end

