-- ==== Sys2Proof/Machine/TableCommands.lean ====
section
/-! DEFINITION. The commands `CHROF` and `VALOF` (40_alphabet_tables.md R98, R99), and what a reserved `CMD` word does
(30_encoding.md R74). -/

namespace Sys2Proof.Machine

/-- `CHROF` (R98): the operand is compared with 84 on all 32 bits. -/
def chrofCommand (s : State) : State :=
  let s := s.prologue
  if s.arg.toNat > 84 then s.raise .refused
  else s.finishTable (resOfDigit (s.arg.setWidth 7))

/-- `VALOF` (R99): an operand with a bit above bit 20 set is not found. -/
def valofCommand (s : State) : State :=
  let s := s.prologue
  if fitsCell s.arg then s.finishTable (resOfChar (cellOf s.arg))
  else s.finishTable ⟨0, false⟩

/-- A reserved `CMD` word (R74, R183): the prologue, then `raise Refused`. -/
def reservedCommand (s : State) : State := s.prologue.raise .refused

/-- The transaction that runs `CHROF`, acknowledged when the command has ended (R165). -/
def execChrof (s : State) : Host.Outcome State Fault Refusal := .next ((chrofCommand s).respond .ack)

/-- The transaction that runs `VALOF`, acknowledged when the command has ended (R165). -/
def execValof (s : State) : Host.Outcome State Fault Refusal := .next ((valofCommand s).respond .ack)

end Sys2Proof.Machine
end

