-- ==== Sys2Proof/Machine/Bus.lean ====
section
/-! DEFINITION. The bus transactions `RD` and `WR` (43_host_access.md R160 to R166). -/

namespace Sys2Proof.Machine

/-- The answer to a read (R160, R162, R164). -/
def State.readBus (s : State) (addr : BusAddr) : Response :=
  match locate addr with
  | .cmd => .buserr
  | .status => .data s.statusWord
  | .off => .data s.off
  | .len => .data s.len
  | .olen => .data s.olen
  | .elen => .data s.elen
  | .emult => .data s.emult
  | .echar => .data s.echarWord
  | .epos => .data s.epos
  | .arg => .data s.arg
  | .res => .data s.res.word
  | .ibuf _ => .buserr
  | .obuf j => if j < s.olen.toNat then .data ((s.obufCell j).setWidth 32) else .buserr
  | .unmapped => .buserr

/-- A bus read (R160): the answer, and no state change. -/
def execRd (addr : BusAddr) (s : State) : Host.Outcome State Fault Refusal :=
  .next (s.respond (s.readBus addr))

/-- The command the data of a `CMD` write selects (R165, R72 to R74), from prologue to end. -/
def commandOf (wdata : Word) (s : State) : State :=
  match decodeCmd wdata with
  | .ok .enc => encCommand s
  | .ok .dec => decCommand s
  | .ok .chrof => chrofCommand s
  | .ok .valof => valofCommand s
  | .ok (.rd _) => reservedCommand s
  | .ok (.wr _ _) => reservedCommand s
  | .error _ => reservedCommand s

/-- An `IBUF` write (R163): the cell exists and the data fits it, or `buserr` with the cell as it was. -/
def State.writeCell (s : State) (i : Nat) (wdata : Word) : State :=
  if i < s.config.cap ∧ fitsCell wdata then (s.writeIbuf i (cellOf wdata)).respond .ack else s.respond .buserr

/-- A bus write (R161, R162, R166), with its answer. -/
def State.writeBus (s : State) (addr : BusAddr) (wdata : Word) : State :=
  match locate addr with
  | .cmd => (commandOf wdata s).respond .ack
  | .off => ({ s with off := wdata } : State).respond .ack
  | .len => ({ s with len := wdata } : State).respond .ack
  | .arg => ({ s with arg := wdata } : State).respond .ack
  | .ibuf i => s.writeCell i wdata
  | .status => s.respond .buserr
  | .olen => s.respond .buserr
  | .elen => s.respond .buserr
  | .emult => s.respond .buserr
  | .echar => s.respond .buserr
  | .epos => s.respond .buserr
  | .res => s.respond .buserr
  | .obuf _ => s.respond .buserr
  | .unmapped => s.respond .buserr

/-- A bus write (R161). -/
def execWr (addr : BusAddr) (wdata : Word) (s : State) : Host.Outcome State Fault Refusal :=
  .next (s.writeBus addr wdata)

end Sys2Proof.Machine
end

