-- ==== Sys2Proof/Machine/Step.lean ====
section
/-! DEFINITION. One step of the block: one event of the host's stream (10_state.md R43, 20_memory.md R64). -/

namespace Sys2Proof.Machine

/-- The next event is taken and completes before the one after it (R64, R165). With none pending the block is idle and
keeps its state (60_exceptions.md R198). -/
def step (s : State) : Host.Outcome State Fault Refusal :=
  match s.takeEvent with
  | none => .next s
  | some (.transaction w, t) => exec (decode w) t
  | some (.reset, t) => .next t.applyReset
  | some (.resetDuringCommand _, t) => .next t.applyResetDuringCommand
  | some (.powerOn, t) => .next t.applyPowerOn

/-- The state in which the next step takes the transaction that carries a word of the opcode table (log 1, log 11). -/
def State.withFetchWord (s : State) (nbits w : Nat) : State :=
  match tableTransaction nbits w with
  | .ok t => s.pushTransaction t
  | .error _ => s

end Sys2Proof.Machine
end

