-- ==== Sys2Proof/Machine/Driver.lean ====
section
/-! DEFINITION. The host side the spec fixes: the script notation (30_encoding.md R78, R79; 43_host_access.md R167) as
lists of events, and the driver's error message (60_exceptions.md R190). Software outside the block: no step calls it
(log 16). -/

namespace Sys2Proof.Machine

/-- `WR loc, value` (R78). -/
def scriptWr (addr : BusAddr) (value : Word) : HostEvent := .transaction (busWord true addr value)

/-- `RD loc` (R78). -/
def scriptRd (addr : BusAddr) : HostEvent := .transaction (busWord false addr 0)

/-- `ENCODE` (R79). -/
def scriptEncode : List HostEvent := [scriptWr 0 1]

/-- `DECODE` (R79). -/
def scriptDecode : List HostEvent := [scriptWr 0 2]

/-- `CHAROF d` (R79). -/
def scriptCharOf (d : Word) : List HostEvent := [scriptWr 9 d, scriptWr 0 3, scriptRd 0xA]

/-- `VALUEOF c` (R79). -/
def scriptValueOf (c : Word) : List HostEvent := [scriptWr 9 c, scriptWr 0 4, scriptRd 0xA]

/-- `VIEW off, len` (R79). -/
def scriptView (off len : Word) : List HostEvent := [scriptWr 2 off, scriptWr 3 len]

/-- `PUTB n, …` and `PUTS n, …` (R79): one cell per byte or code point, from `IBUF[n]` up. -/
def scriptPut : Nat → List Word → List HostEvent
  | _, [] => []
  | n, x :: xs => scriptWr (BitVec.ofNat 18 (0x10000 + n)) x :: scriptPut (n + 1) xs

/-- `GET n` (R79): `RD OBUF+0` to `RD OBUF+n-1`. -/
def scriptGet (n : Nat) : List HostEvent :=
  (List.range n).map fun j => scriptRd (BitVec.ofNat 18 (0x20000 + j))

/-- The part of `encode(off, len)` before the host looks at `STATUS` (R79). -/
def scriptEncodeCall (off len : Word) : List HostEvent :=
  scriptView off len ++ scriptEncode ++ [scriptRd 1, scriptRd 4]

/-- The part of `decode(off, len)` before the host looks at `STATUS` (R79). -/
def scriptDecodeCall (off len : Word) : List HostEvent :=
  scriptView off len ++ scriptDecode ++ [scriptRd 1, scriptRd 4]

/-- What `decode(off, len)` reads next, from the outcome and `OLEN` it read (R79, R167). -/
def scriptFollowUp (kind : Kind) (olen : Nat) : List HostEvent :=
  match kind with
  | .ok => scriptGet olen
  | .invalidLength => [scriptRd 5, scriptRd 6]
  | .invalidCharacter => [scriptRd 7, scriptRd 8]
  | .refused => []

/-- The decimal numeral of a number below `10 ^ fuel`, with no leading zeros (R190). -/
def decimalDigits : Nat → Nat → List CharCell
  | 0, _ => []
  | fuel + 1, n =>
    if n < 10 then [BitVec.ofNat 21 (0x30 + n)]
    else decimalDigits fuel (n / 10) ++ [BitVec.ofNat 21 (0x30 + n % 10)]

/-- The code points of a piece of fixed text. -/
def codePoints (text : String) : List CharCell := text.toList.map fun ch => BitVec.ofNat 21 ch.toNat

/-- The driver's message for `InvalidCharacter` as code points (R190): the fixed text around the character as itself
and the position in decimal. Ten digits hold every 32-bit number. -/
def invalidCharacterMessage (echar : CharCell) (epos : Word) : List CharCell :=
  codePoints "Character '" ++ [echar] ++ codePoints "' in position " ++ decimalDigits 10 epos.toNat ++
    codePoints " is not valid Z85"

end Sys2Proof.Machine
end

