-- ==== Sys2Proof/Safety.lean ====
section
/-! DEFINITION. The terms claims use: what the host must set up (R214, R216), the invariant of every reachable state
(R6, R34, R35, R42), and the numbers the codec's rules speak of (R113 to R116, R135). -/

namespace Sys2Proof.Machine

/-! ### What the host must set up (R214, R216) -/

/-- Every cell of the view has been written since power-on (R214). -/
def State.ViewWritten (s : State) : Prop :=
  ∀ k < s.len.toNat, (Memory.read s.ibuf (s.off.toNat + k)).isSome

/-- Every character of the view is in the alphabet (R132). -/
def State.ViewInAlphabet (s : State) : Prop :=
  ∀ k < s.len.toNat, (valueOf (s.viewChar k)).isSome

/-- Every cell of the view holds a byte (R216 item 6). -/
def State.BytesInView (s : State) : Prop :=
  ∀ k < s.len.toNat, (s.viewChar k).toNat ≤ 0xFF

/-- Two states hold the same sequence in their views (R59). -/
def State.SameView (s t : State) : Prop :=
  s.len = t.len ∧ ∀ k < s.len.toNat, s.viewChar k = t.viewChar k

/-! ### The numbers of the codec -/

/-- Digit `i` of `v` in base 85, digit 0 most significant (R114). -/
def digitOf (v i : Nat) : Nat := v / 85 ^ (4 - i) % 85

/-- The group value of encoder group `g` of the view (R113). -/
def State.encValue (s : State) (g : Nat) : Nat :=
  (s.viewByte (4 * g)).toNat * 2 ^ 24 + (s.viewByte (4 * g + 1)).toNat * 2 ^ 16 +
    (s.viewByte (4 * g + 2)).toNat * 2 ^ 8 + (s.viewByte (4 * g + 3)).toNat

/-- The digit value of character `k` of the view; 0 where the character is not in the alphabet, a value no claim uses. -/
def State.viewDigit (s : State) (k : Nat) : Nat := ((valueOf (s.viewChar k)).getD 0).toNat

/-- The exact value `V` of decoder group `g` of the view, before the reduction modulo 2^32 (R135). -/
def State.decValue (s : State) (g : Nat) : Nat :=
  s.viewDigit (5 * g) * 52200625 + s.viewDigit (5 * g + 1) * 614125 + s.viewDigit (5 * g + 2) * 7225 +
    s.viewDigit (5 * g + 3) * 85 + s.viewDigit (5 * g + 4)

/-! ### Frames -/

/-- What no command touches (R61, R188): the operand registers, `CAP`, every cell of `IBUF`, and the host's stream. -/
structure State.SameInputs (s t : State) : Prop where
  config : t.config = s.config
  off : t.off = s.off
  len : t.len = s.len
  arg : t.arg = s.arg
  ibuf : t.ibuf = s.ibuf
  ibufEpoch : t.ibufEpoch = s.ibufEpoch
  cells : ∀ i, t.ibufCell i = s.ibufCell i
  input : t.input = s.input

/-- No record of an error is held (R28 to R31): `ELEN = EMULT = ECHAR = EPOS = 0`. -/
structure State.NoRecord (t : State) : Prop where
  elen : t.elen = 0
  emult : t.emult = 0
  echar : t.echar = 0
  epos : t.epos = 0

/-- The host reads the same outcome in both states: every result register, and every readable `OBUF` cell (R59). -/
structure State.SameOutcome (s t : State) : Prop where
  kind : s.kind = t.kind
  olen : s.olen = t.olen
  elen : s.elen = t.elen
  emult : s.emult = t.emult
  echar : s.echar = t.echar
  epos : s.epos = t.epos
  res : s.res = t.res
  cells : ∀ j < s.olen.toNat, s.obufCell j = t.obufCell j

/-! ### The invariant -/

/-- Every listed index lies below a bound. -/
def Memory.below {w : Nat} (m : Memory w) (n : Nat) : Bool := m.all fun c => decide (c.1 < n)

/-- The invariant of every reachable state: a legal `CAP` (R6), the buffers in canonical form and inside their bounds
(R34, R35), every readable `OBUF` cell written by the block (R35), and the six items of R42. Item 3's bound on `EPOS` is
by `CAP`, in every state; the bound by `LEN` relates a state to the command that made its record, so it is EposWithin
below (log 13). -/
structure State.Inv (s : State) : Prop where
  capLegal : s.config.Legal
  ibufWf : Memory.wf s.ibuf
  ibufBelow : Memory.below s.ibuf s.config.cap
  obufWf : Memory.wf s.obuf
  obufBelow : Memory.below s.obuf s.config.obufCells
  readable : ∀ j < s.olen.toNat, (Memory.read s.obuf j).isSome
  /-- R42 item 1. -/
  failEmpty : s.kind ≠ .ok → s.olen = 0
  /-- R42 items 2 and 4. -/
  lengthRecord : s.kind = .invalidLength →
    (s.emult = 4 ∨ s.emult = 5) ∧ s.elen.toNat % s.emult.toNat ≠ 0
  noLengthRecord : s.kind ≠ .invalidLength → s.elen = 0 ∧ s.emult = 0
  /-- R42 items 3 and 4. -/
  charRecord : s.kind = .invalidCharacter →
    valueOf s.echar = none ∧ 1 ≤ s.epos.toNat ∧ s.epos.toNat ≤ s.config.cap
  noCharRecord : s.kind ≠ .invalidCharacter → s.echar = 0 ∧ s.epos = 0
  /-- R42 item 5. -/
  olenBound : s.olen.toNat ≤ s.config.obufCells
  olenGroups : s.olen.toNat % 5 = 0 ∨ s.olen.toNat % 4 = 0
  /-- R42 item 6. -/
  foundClean : s.res.found = true → s.kind = .ok ∧ s.olen = 0

/-- A reported position lies in a string of `n` characters: `1 <= EPOS <= n` (R31; R42 item 3). -/
def State.EposWithin (s : State) (n : Word) : Prop :=
  s.kind = .invalidCharacter → 1 ≤ s.epos.toNat ∧ s.epos.toNat ≤ n.toNat

/-- R42 item 3's bound with `LEN` read as what the register holds now. It holds when a command ends (R31) and until the
host writes to `LEN` a value below `EPOS`, which R161 and R166 store all the same. With `LEN` as in R31, the length the
command ran with, the bound holds always (log 13, Obligations.EposStaysWithinLen). -/
def State.EposWithinLen (s : State) : Prop := s.EposWithin s.len

end Sys2Proof.Machine
end

