-- ==== Sys2Proof/Certificates/Slice0/Obligations.lean ====
section
/-! DEFINITION. The statements for the provers. Each docstring names the rule of spec/ it formalises; where a clause is
the model's choice the docstring names the log entry. -/

open Sys2Proof Sys2Proof.Machine

/-! ### Encoding -/

/-- R70 to R73: decoding the word of a well-formed instruction gives the instruction back, with every operand at every
value. -/
def Obligations.DecodeOfEncodeIsTheInstruction : Prop :=
  ∀ i : Instr, i.wellFormed = true → decode (encode i) = i

/-- R70 to R74: every 51-bit word decodes to a well-formed instruction, and encoding that gives the word back, but for
the data bits a read ignores. -/
def Obligations.EncodeOfDecodeIsTheWord : Prop :=
  ∀ w : BusWord, (decode w).wellFormed = true ∧
    (busWe w = true ∨ busData w = 0 → encode (decode w) = w)

/-- R71, R73 and the encodings written out in 95_test_vectors.md V-BUS and P1 to P4, decoded. -/
def Obligations.WrittenOutWordsDecode : Prop :=
  decode 0x0000100000000#51 = .rd 0x00001 ∧
  decode 0x3FFFF00000000#51 = .rd 0x3FFFF ∧
  decode 0x40002FFFFFFFF#51 = .wr 0x00002 0xFFFFFFFF ∧
  decode 0x503E700000041#51 = .wr 0x103E7 0x41 ∧
  decode 0x4000000000001#51 = .enc ∧
  decode 0x4000000000002#51 = .dec ∧
  decode 0x4000000000003#51 = .chrof ∧
  decode 0x4000000000004#51 = .valof ∧
  decode 0x4000000000011#51 = .wr 0 0x11

/-- R72, R73, R74: the four command words match on all 32 bits; `ZERO != 0` is reserved whatever `CODE` is; with
`ZERO = 0` the codes 0 and 5 to 15 are reserved. -/
def Obligations.CommandWordsMatchOnAllBits : Prop :=
  ∀ w : Word,
    (decodeCmd w = .ok .enc ↔ w.toNat = 1) ∧ (decodeCmd w = .ok .dec ↔ w.toNat = 2) ∧
    (decodeCmd w = .ok .chrof ↔ w.toNat = 3) ∧ (decodeCmd w = .ok .valof ↔ w.toNat = 4) ∧
    (decodeCmd w = .error .zeroFieldSet ↔ 16 ≤ w.toNat) ∧
    (decodeCmd w = .error .codeUnassigned ↔ w.toNat = 0 ∨ 5 ≤ w.toNat ∧ w.toNat ≤ 15)

/-! ### Steps, reset, the invariant -/

/-- R64, R70: a step takes the next transaction and runs the instruction its word decodes to, on the state without that
transaction. -/
def Obligations.StepRunsTheDecodedTransaction : Prop :=
  ∀ (s : State) (w : BusWord) (rest : List HostEvent), s.input = .transaction w :: rest →
    step s = exec (decode w) { s with input := rest }

/-- Log 1, log 11, R70: where a word of the opcode table decodes to an instruction, the step after it is put in front of
the host's stream runs exactly that instruction on the state as it was. -/
def Obligations.FetchWordRunsTheTableInstruction : Prop :=
  ∀ (s : State) (nbits w : Nat) (i : Instr), decodeTableWord nbits w = some i →
    step (s.withFetchWord nbits w) = exec i s

/-- R198: with no transaction to take the block is idle and keeps all its state. -/
def Obligations.IdleStepKeepsTheState : Prop :=
  ∀ s : State, s.input = [] → step s = .next s

/-- R210, R41: reset makes the ten host registers 0 and keeps what every `IBUF` cell held. That it leaves the host's
pending events and the responses given is the model's (log 12). -/
def Obligations.ResetClearsTheRegistersAndKeepsIbuf : Prop :=
  ∀ (s : State) (rest : List HostEvent), s.input = .reset :: rest →
    ∃ t, step s = .next t ∧ t.kind = .ok ∧ t.off = 0 ∧ t.len = 0 ∧ t.olen = 0 ∧ t.NoRecord ∧ t.arg = 0 ∧
      t.res = ⟨0, false⟩ ∧ t.config = s.config ∧ (∀ i, t.ibufCell i = s.ibufCell i) ∧
      t.input = rest ∧ t.output = s.output

/-- R211: a command cut short by reset gets no acknowledgement, the registers are those of reset, and `IBUF` is kept.
How the event stands in the host's stream is the model's (log 12). -/
def Obligations.ResetDuringACommandGivesNoAnswer : Prop :=
  ∀ (s : State) (d : Word) (rest : List HostEvent), s.input = .resetDuringCommand d :: rest →
    ∃ t, step s = .next t ∧ t.kind = .ok ∧ t.off = 0 ∧ t.len = 0 ∧ t.olen = 0 ∧ t.NoRecord ∧ t.arg = 0 ∧
      t.res = ⟨0, false⟩ ∧ t.config = s.config ∧ (∀ i, t.ibufCell i = s.ibufCell i) ∧
      t.input = rest ∧ t.output = s.output

/-- R210, U1, U2: after power-on the registers are 0 and no cell of either buffer holds anything the host or the block
wrote. The event is the model's (log 12). -/
def Obligations.PowerOnForgetsTheBuffers : Prop :=
  ∀ (s : State) (rest : List HostEvent), s.input = .powerOn :: rest →
    ∃ t, step s = .next t ∧ t.kind = .ok ∧ t.off = 0 ∧ t.len = 0 ∧ t.olen = 0 ∧ t.NoRecord ∧ t.arg = 0 ∧
      t.res = ⟨0, false⟩ ∧ t.config = s.config ∧ (∀ i, Memory.read t.ibuf i = none) ∧
      (∀ j, Memory.read t.obuf j = none) ∧ t.input = rest ∧ t.output = s.output

/-- 93_implementation_defined.md section 1, R64, R77: in every state one step answers a next state; it takes at most the
next event and never changes `CAP` (R43). -/
def Obligations.EveryStepHasANextState : Prop :=
  ∀ s : State, ∃ t, step s = .next t ∧ t.input = s.input.tail ∧ t.config = s.config

/-- R51, R165: every transaction is answered exactly once: a read with data or `buserr`, a write with `ok` or `buserr`. -/
def Obligations.EveryTransactionIsAnsweredOnce : Prop :=
  ∀ (s : State) (w : BusWord) (rest : List HostEvent), s.input = .transaction w :: rest →
    ∃ t r, step s = .next t ∧ t.output = r :: s.output ∧
      (busWe w = false → r = .buserr ∨ ∃ d, r = .data d) ∧ (busWe w = true → r = .ack ∨ r = .buserr)

/-- R41, R210: the registers of State.reset are 0, on the bus too, and no `OBUF` cell is readable. -/
def Obligations.ResetRegistersReadZero : Prop :=
  State.reset.kind = .ok ∧ State.reset.off = 0 ∧ State.reset.len = 0 ∧ State.reset.olen = 0 ∧
  State.reset.NoRecord ∧ State.reset.arg = 0 ∧ State.reset.res = ⟨0, false⟩ ∧
  (∀ a : BusAddr, 1 ≤ a.toNat → a.toNat ≤ 10 → State.reset.readBus a = .data 0) ∧
  (∀ a : BusAddr, 0x20000 ≤ a.toNat → State.reset.readBus a = .buserr)

/-- R41, R42, R6: the state after reset meets the invariant, and R42 item 3's bound as it is written. -/
def Obligations.ResetMeetsTheInvariant : Prop := State.reset.Inv ∧ State.reset.EposWithinLen

/-- R42 (item 3's upper bound here by CAP, log 13), R6, R34, R35: from every state that meets the invariant, every step
gives a state that meets it. -/
def Obligations.StepKeepsTheInvariant : Prop :=
  ∀ s t : State, s.Inv → step s = .next t → t.Inv

/-- R42 item 3, `1 <= EPOS <= LEN`. With `LEN` as R31 has it, the length the command ran with, there is no exception: a
write of any word to `CMD` leaves the bound if it leaves a record, and `LEN` as it was; after any other step, whatever it
writes, a record is the one held before it, position and character, so no step takes `EPOS` past that `LEN` (log 13). A
command's instruction by itself leaves the bound too. With `LEN` read as what the register holds now, every step from a state that meets
the invariant and the bound keeps it, but for a write to `LEN` of a value below the `EPOS` then held, which R161 and R166
store (log 13). -/
def Obligations.EposStaysWithinLen : Prop :=
  (∀ s t : State, s.config.Legal → step s = .next t →
    (∀ d rest, s.input = .transaction (busWord true 0 d) :: rest → t.len = s.len ∧ t.EposWithin s.len) ∧
    ((∀ d rest, s.input ≠ .transaction (busWord true 0 d) :: rest) →
      (t.kind = .invalidCharacter → s.kind = .invalidCharacter ∧ t.epos = s.epos ∧ t.echar = s.echar) ∧
      ∀ n, s.EposWithin n → t.EposWithin n)) ∧
  (∀ (s t : State) (i : Instr), s.config.Legal →
    i = .enc ∨ i = .dec ∨ i = .chrof ∨ i = .valof ∨ (∃ d, i = .wr 0 d) → exec i s = .next t → t.EposWithinLen) ∧
  (∀ s t : State, s.Inv → s.EposWithinLen → step s = .next t →
    (∀ d rest, s.input = .transaction (busWord true 0x00003 d) :: rest → s.kind = .invalidCharacter →
      s.epos.toNat ≤ d.toNat) →
    t.EposWithinLen)

/-- Log 13: what `LEN` holds now need not bound `EPOS`. A write to `LEN` is always stored and leaves the record as it was (R161,
R166), so from some state that meets the invariant and the bound, one write breaks the bound. -/
def Obligations.LenWriteCanBreakTheEposBound : Prop :=
  ∃ s t : State, s.Inv ∧ s.kind = .invalidCharacter ∧ s.epos.toNat ≤ s.len.toNat ∧
    exec (.wr 0x00003 0) s = .next t ∧ t.kind = .invalidCharacter ∧ ¬ t.epos.toNat ≤ t.len.toNat

/-! ### The bus -/

/-- R160: a word with `we = 0`, whatever its data bits (R71), is a read of its address; what a read of each address
answers, with no state change. -/
def Obligations.ReadAnswersByTheMap : Prop :=
  ∀ (s : State) (a : BusAddr),
    (∀ d : Word, decode (busWord false a d) = .rd a) ∧
    exec (.rd a) s = .next { s with output :=
      (if a = 0x00001 then .data s.statusWord
       else if a = 0x00002 then .data s.off
       else if a = 0x00003 then .data s.len
       else if a = 0x00004 then .data s.olen
       else if a = 0x00005 then .data s.elen
       else if a = 0x00006 then .data s.emult
       else if a = 0x00007 then .data s.echarWord
       else if a = 0x00008 then .data s.epos
       else if a = 0x00009 then .data s.arg
       else if a = 0x0000A then .data s.res.word
       else if 0x20000 ≤ a.toNat ∧ a.toNat < 0x20000 + s.olen.toNat then
         .data ((s.obufCell (a.toNat - 0x20000)).setWidth 32)
       else .buserr) :: s.output }

/-- R26, R30, R33: `STATUS` reads as the code of `KIND`, `ECHAR` as the code point, `RES` as `VALUE` plus 256 for
`FOUND`; the bits no field names read as 0. -/
def Obligations.RegistersReadAsTheirFields : Prop :=
  ∀ s : State,
    (s.kind = .ok → s.statusWord.toNat = 0) ∧ (s.kind = .invalidLength → s.statusWord.toNat = 1) ∧
    (s.kind = .invalidCharacter → s.statusWord.toNat = 2) ∧ (s.kind = .refused → s.statusWord.toNat = 3) ∧
    s.echarWord.toNat = s.echar.toNat ∧
    s.res.word.toNat = s.res.value.toNat + (if s.res.found then 256 else 0)

/-- R161, R163, R166: what a write to each address other than `CMD` does, its whole next state. A register write stores
all 32 bits and never fails; an `IBUF` write stores bits [20:0] when the cell exists and bits [31:21] are 0; anything
else is `buserr` and changes nothing. -/
def Obligations.WriteActsByTheMap : Prop :=
  ∀ (s : State) (a : BusAddr) (d : Word), s.config.Legal → a ≠ 0 →
    exec (.wr a d) s = .next
      (if a = 0x00002 then { s with off := d, output := .ack :: s.output }
       else if a = 0x00003 then { s with len := d, output := .ack :: s.output }
       else if a = 0x00009 then { s with arg := d, output := .ack :: s.output }
       else if 0x10000 ≤ a.toNat ∧ a.toNat < 0x10000 + s.config.cap ∧ d.toNat < 2 ^ 21 then
         { s with
           ibuf := Memory.write s.ibuf (a.toNat - 0x10000) (d.setWidth 21)
           output := .ack :: s.output }
       else { s with output := .buserr :: s.output })

/-- R163: an accepted `IBUF` write makes the cell hold the data; every other cell of `IBUF` and every cell of `OBUF`
reads as before. -/
def Obligations.IbufWriteStoresOneCell : Prop :=
  ∀ (s : State) (i : Nat) (d : Word), s.config.Legal → i < s.config.cap → d.toNat < 2 ^ 21 →
    ∃ t, exec (.wr (BitVec.ofNat 18 (0x10000 + i)) d) s = .next t ∧ (t.ibufCell i).toNat = d.toNat ∧
      (∀ k, k ≠ i → t.ibufCell k = s.ibufCell k) ∧ (∀ j, t.obufCell j = s.obufCell j) ∧
      s.SameOutcome t ∧ t.off = s.off ∧ t.len = s.len ∧ t.arg = s.arg ∧ t.output = .ack :: s.output

/-- R161, R165, R73: a write to `CMD` of the words 1 to 4 runs that command. -/
def Obligations.CommandWriteRunsTheCommand : Prop :=
  ∀ s : State, exec (.wr 0 1) s = exec .enc s ∧ exec (.wr 0 2) s = exec .dec s ∧
    exec (.wr 0 3) s = exec .chrof s ∧ exec (.wr 0 4) s = exec .valof s

/-- R74, R183: a word with `ZERO != 0`, or with `CODE` 0 or 5 to 15, written to `CMD` is acknowledged and refused: the
prologue, `KIND = 3`, nothing else. -/
def Obligations.ReservedCommandWordIsRefused : Prop :=
  ∀ (s : State) (d : Word), cmdZero d ≠ 0 ∨ cmdCode d = 0 ∨ 5 ≤ (cmdCode d).toNat →
    exec (.wr 0 d) s = .next { s with
      kind := .refused, olen := 0, elen := 0, emult := 0, echar := 0, epos := 0, res := ⟨0, false⟩
      output := .ack :: s.output }

/-- R162: exactly which transactions get `buserr`; such a transaction changes no state at all. -/
def Obligations.BusErrorExactlyByTheMap : Prop :=
  ∀ (s : State) (a : BusAddr) (d : Word), s.config.Legal →
    (exec (.rd a) s = .next { s with output := .buserr :: s.output } ↔
      a.toNat = 0 ∨ (0x0000B ≤ a.toNat ∧ a.toNat < 0x20000) ∨ 0x20000 + s.olen.toNat ≤ a.toNat) ∧
    (exec (.wr a d) s = .next { s with output := .buserr :: s.output } ↔
      a.toNat = 1 ∨ (4 ≤ a.toNat ∧ a.toNat ≤ 8) ∨ (0x0000A ≤ a.toNat ∧ a.toNat < 0x10000) ∨
      0x10000 + s.config.cap ≤ a.toNat ∨ (0x10000 ≤ a.toNat ∧ 2 ^ 21 ≤ d.toNat)) ∧
    (∀ (i : Instr) (t : State), exec i s = .next t → t.output = .buserr :: s.output →
      t = { s with output := .buserr :: s.output })

/-- R61: a read repeated with no write between gets the same response. -/
def Obligations.ReadIsIdempotent : Prop :=
  ∀ (s : State) (a : BusAddr), ∃ r, exec (.rd a) s = .next (s.respond r) ∧
    exec (.rd a) (s.respond r) = .next ((s.respond r).respond r)

/-- R161, R164, R217: a transaction that is no write to `CMD` disturbs no result: the outcome stays as it was and every
location other than the one addressed reads as before. -/
def Obligations.ResultStaysUntilTheNextCommand : Prop :=
  ∀ (s : State) (i : Instr) (a : BusAddr) (d : Word), i = .rd a ∨ i = .wr a d ∧ a ≠ 0 →
    ∃ t, exec i s = .next t ∧ s.SameOutcome t ∧ (∀ b, b ≠ a → t.readBus b = s.readBus b)

/-- R34, R61, R163, R210: the only events that change what an `IBUF` cell holds are power-on and an accepted write to
that cell: its address, and data below 2^21. The events other than transactions are the model's (log 12); that a reset
during a command keeps `IBUF` is its reading of R211. -/
def Obligations.OnlyItsWriteChangesAnIbufCell : Prop :=
  ∀ (s t : State) (k : Nat), step s = .next t → t.ibufCell k ≠ s.ibufCell k →
    (∃ rest, s.input = .powerOn :: rest) ∨
    (∃ a d rest, s.input = .transaction (busWord true a d) :: rest ∧ a.toNat = 0x10000 + k ∧ k < s.config.cap ∧
      d.toNat < 2 ^ 21)

/-! ### Commands: what holds of all -/

/-- R61, R165, R188: in every state every command completes, is acknowledged, and leaves `OFF`, `LEN`, `ARG`, `CAP` and
every cell of `IBUF` as they were. -/
def Obligations.CommandsNeverChangeTheInput : Prop :=
  ∀ (s : State) (i : Instr), i = .enc ∨ i = .dec ∨ i = .chrof ∨ i = .valof →
    ∃ t, exec i s = .next t ∧ s.SameInputs t ∧ t.output = .ack :: s.output

/-- R39: what the host can read after a command depends on the command, `CAP`, `OFF`, `LEN`, `ARG` and the cells of the
view alone: not on any result register, working register, buffer content or event before it. -/
def Obligations.ResultDependsOnlyOnTheOperands : Prop :=
  ∀ (s t : State) (i : Instr), i = .enc ∨ i = .dec ∨ i = .chrof ∨ i = .valof → s.config.Legal →
    s.config = t.config → s.off = t.off → s.arg = t.arg → s.SameView t →
    ∃ s' t', exec i s = .next s' ∧ exec i t = .next t' ∧ s'.SameOutcome t'

/-- R59: the outcome of `ENC` and of `DEC` is a function of the view's sequence alone; `OFF`, the cells outside the
view, the capacity and everything earlier have no influence. -/
def Obligations.EqualViewsGiveEqualOutcomes : Prop :=
  ∀ (s t : State) (i : Instr), i = .enc ∨ i = .dec → s.config.Legal → t.config.Legal →
    s.off.toNat + s.len.toNat ≤ s.config.cap → t.off.toNat + t.len.toNat ≤ t.config.cap → s.SameView t →
    ∃ s' t', exec i s = .next s' ∧ exec i t = .next t' ∧ s'.SameOutcome t'

/-- R184: `ENC` and `DEC` end `Refused` exactly when the exact sum `OFF + LEN` exceeds `CAP`; then only the prologue and
`KIND` have effect. -/
def Obligations.RefusedExactlyWhenTheViewDoesNotFit : Prop :=
  ∀ (s : State) (i : Instr), i = .enc ∨ i = .dec →
    ∃ t, exec i s = .next t ∧ (t.kind = .refused ↔ s.config.cap < s.off.toNat + s.len.toNat) ∧
      (s.config.cap < s.off.toNat + s.len.toNat → t = { s with
        kind := .refused, olen := 0, elen := 0, emult := 0, echar := 0, epos := 0, res := ⟨0, false⟩
        output := .ack :: s.output })

/-- R185: `ENC` ends `InvalidLength` exactly when the view fits and `LEN` is no multiple of 4, `DEC` of 5; then `ELEN` is
`LEN`, `EMULT` the multiple, and nothing but the prologue and this record has effect, whatever the view holds. -/
def Obligations.InvalidLengthExactlyAndItsRecord : Prop :=
  ∀ (s : State) (i : Instr) (m : Word), (i = .enc ∧ m = 4) ∨ (i = .dec ∧ m = 5) →
    ∃ t, exec i s = .next t ∧
      (t.kind = .invalidLength ↔
        s.off.toNat + s.len.toNat ≤ s.config.cap ∧ s.len.toNat % m.toNat ≠ 0) ∧
      (t.kind = .invalidLength → t = { s with
        kind := .invalidLength, olen := 0, elen := s.len, emult := m, echar := 0, epos := 0, res := ⟨0, false⟩
        output := .ack :: s.output })

/-- R187: the causes in their order, for every command: reserved word; capacity, or `ARG > 84`; length; the first
character outside the alphabet; else `OK`. -/
def Obligations.OutcomeByPriority : Prop :=
  ∀ s : State, s.config.Legal →
    (∀ d : Word, cmdZero d ≠ 0 ∨ cmdCode d = 0 ∨ 5 ≤ (cmdCode d).toNat →
      ∃ t, exec (.wr 0 d) s = .next t ∧ t.kind = .refused) ∧
    (∃ t, exec .enc s = .next t ∧ t.kind =
      if s.config.cap < s.off.toNat + s.len.toNat then .refused
      else if s.len.toNat % 4 ≠ 0 then .invalidLength else .ok) ∧
    (∃ t, exec .dec s = .next t ∧
      (s.config.cap < s.off.toNat + s.len.toNat → t.kind = .refused) ∧
      (s.off.toNat + s.len.toNat ≤ s.config.cap → s.len.toNat % 5 ≠ 0 → t.kind = .invalidLength) ∧
      (s.off.toNat + s.len.toNat ≤ s.config.cap → s.len.toNat % 5 = 0 → ¬ s.ViewInAlphabet →
        t.kind = .invalidCharacter ∧ ∃ p < s.len.toNat, t.epos.toNat = p + 1 ∧ valueOf (s.viewChar p) = none ∧
          ∀ k < p, (valueOf (s.viewChar k)).isSome) ∧
      (s.off.toNat + s.len.toNat ≤ s.config.cap → s.len.toNat % 5 = 0 → s.ViewInAlphabet → t.kind = .ok)) ∧
    (∃ t, exec .chrof s = .next t ∧ t.kind = if 84 < s.arg.toNat then .refused else .ok) ∧
    (∃ t, exec .valof s = .next t ∧ t.kind = .ok)

/-- R188: after any command, a write of any word to `CMD` included, that did not end `OK`, the input is as it was,
`OLEN` and `RES` are 0, no `OBUF` address can be read, and only the record of the outcome (R180) is held. -/
def Obligations.FailureLeavesOnlyItsRecord : Prop :=
  ∀ (s t : State) (i : Instr), s.config.Legal → i = .enc ∨ i = .dec ∨ i = .chrof ∨ (∃ d, i = .wr 0 d) →
    exec i s = .next t → t.kind ≠ .ok →
    s.SameInputs t ∧ t.olen = 0 ∧ t.res = ⟨0, false⟩ ∧
    (∀ b : BusAddr, 0x20000 ≤ b.toNat → t.readBus b = .buserr) ∧
    (t.kind = .invalidLength → t.elen = s.len ∧ (t.emult = 4 ∨ t.emult = 5) ∧ t.echar = 0 ∧ t.epos = 0) ∧
    (t.kind = .invalidCharacter → t.elen = 0 ∧ t.emult = 0 ∧
      ∃ k < s.len.toNat, t.echar = s.viewChar k ∧ t.epos.toNat = k + 1 ∧ valueOf (s.viewChar k) = none) ∧
    (t.kind = .refused → t.NoRecord)

/-- R118, R141: an empty view inside the buffer, `OFF = CAP` included, encodes and decodes to the empty result. -/
def Obligations.EmptyViewSucceeds : Prop :=
  ∀ (s : State) (i : Instr), i = .enc ∨ i = .dec → s.len = 0 → s.off.toNat ≤ s.config.cap →
    ∃ t, exec i s = .next t ∧ t.kind = .ok ∧ t.olen = 0 ∧ t.NoRecord ∧ t.res = ⟨0, false⟩

/-- R213: after reset the host cannot tell whether an empty view has been encoded or decoded: every address reads the
same. -/
def Obligations.ResetLooksLikeAnEmptyCall : Prop :=
  ∀ i : Instr, i = .enc ∨ i = .dec →
    ∃ t, exec i State.reset = .next t ∧ ∀ a : BusAddr, t.readBus a = State.reset.readBus a

/-! ### The tables -/

/-- R91, general knowledge in the spec itself (log 9): `charOf` in closed form, and the 23 punctuation codes in
order. -/
def Obligations.AlphabetInClosedForm : Prop :=
  (∀ d : Digit, d.toNat ≤ 9 → (charOf d).toNat = 0x30 + d.toNat) ∧
  (∀ d : Digit, 10 ≤ d.toNat → d.toNat ≤ 35 → (charOf d).toNat = 0x61 + (d.toNat - 10)) ∧
  (∀ d : Digit, 36 ≤ d.toNat → d.toNat ≤ 61 → (charOf d).toNat = 0x41 + (d.toNat - 36)) ∧
  (List.range 23).map (fun k => (charOf (BitVec.ofNat 7 (62 + k))).toNat) =
    [0x2E, 0x2D, 0x3A, 0x2B, 0x3D, 0x5E, 0x21, 0x2F, 0x2A, 0x3F, 0x26, 0x3C, 0x3E, 0x28, 0x29, 0x5B, 0x5D, 0x7B,
      0x7D, 0x40, 0x25, 0x24, 0x23]

/-- R92: 85 pairwise distinct printable codes in 0x21..0x7D, and exactly ten printable ASCII characters (space to `~`)
outside the alphabet. It rests on log 9. -/
def Obligations.AlphabetIsDistinctAndPrintable : Prop :=
  alphabet.length = 85 ∧ alphabet.Nodup ∧
  (∀ d : Digit, d.toNat ≤ 84 → 0x21 ≤ (charOf d).toNat ∧ (charOf d).toNat ≤ 0x7D) ∧
  (∀ c : Nat, 0x20 ≤ c → c ≤ 0x7E → (valueOf (BitVec.ofNat 21 c) = none ↔
    c ∈ [0x20, 0x22, 0x27, 0x2C, 0x3B, 0x5C, 0x5F, 0x60, 0x7C, 0x7E]))

/-- R95: the two tables are inverse to each other, over all digit values and all 2^21 characters. -/
def Obligations.TablesAreInverse : Prop :=
  (∀ d : Digit, d.toNat ≤ 84 → valueOf ((charOf d).setWidth 21) = some d) ∧
  (∀ (c : CharCell) (d : Digit), valueOf c = some d → d.toNat ≤ 84 ∧ (charOf d).setWidth 21 = c)

/-- R94, R96: every character at or above 0x80 is not found, so the comparison is on all 21 bits; nor is any from 0x00 to
0x20, nor 0x7F. It rests on log 9. -/
def Obligations.OnlyAsciiIsFound : Prop :=
  (∀ c : CharCell, 0x80 ≤ c.toNat → valueOf c = none) ∧
  (∀ c : CharCell, c.toNat ≤ 0x20 → valueOf c = none) ∧ valueOf 0x7F = none

/-- R98: `CMD` word 3 is `CHROF`, and its whole effect: above 84, on all 32 bits, it is refused; otherwise `RES` holds
the character. -/
def Obligations.ChrofWholeEffect : Prop :=
  ∀ s : State, decode (busWord true 0 3) = .chrof ∧
    (84 < s.arg.toNat → exec .chrof s = .next { s with
      kind := .refused, olen := 0, elen := 0, emult := 0, echar := 0, epos := 0, res := ⟨0, false⟩
      output := .ack :: s.output }) ∧
    (s.arg.toNat ≤ 84 → exec .chrof s = .next { s with
      kind := .ok, olen := 0, elen := 0, emult := 0, echar := 0, epos := 0
      res := ⟨charOf (BitVec.ofNat 7 s.arg.toNat), true⟩
      output := .ack :: s.output })

/-- R99: `CMD` word 4 is `VALOF`, and its whole effect: it always ends `OK`; `RES` holds the digit value of the
character, or zero when it is not in the alphabet or has a bit above bit 20. -/
def Obligations.ValofWholeEffect : Prop :=
  ∀ s : State, decode (busWord true 0 4) = .valof ∧ exec .valof s = .next { s with
    kind := .ok, olen := 0, elen := 0, emult := 0, echar := 0, epos := 0
    res := if s.arg.toNat < 2 ^ 21 then
        match valueOf (BitVec.ofNat 21 s.arg.toNat) with
        | some d => ⟨d, true⟩
        | none => ⟨0, false⟩
      else ⟨0, false⟩
    output := .ack :: s.output }

/-- R212: the tables need no initialisation: `CHROF` right after reset answers `'0'`, and `VALOF` of U+0000 is not
found. That digit 0 is `'0'`, code 0x30, is the alphabet's entry of log 9. -/
def Obligations.TablesAnswerRightAfterReset : Prop :=
  (∃ t, exec .chrof State.reset = .next t ∧ t.kind = .ok ∧ t.res.word = 0x130) ∧
  (∃ t, exec .valof State.reset = .next t ∧ t.kind = .ok ∧ t.res.word = 0)

/-! ### The encoder -/

/-- R114, R116: the five digits are the base-85 numeral of `v`, most significant first; `d0 <= 82`, the others `<= 84`;
they represent `v` exactly and no other five digits do. -/
def Obligations.DigitsAreTheNumeral : Prop :=
  ∀ v : Word,
    (digits v).d0.toNat = digitOf v.toNat 0 ∧ (digits v).d1.toNat = digitOf v.toNat 1 ∧
    (digits v).d2.toNat = digitOf v.toNat 2 ∧ (digits v).d3.toNat = digitOf v.toNat 3 ∧
    (digits v).d4.toNat = digitOf v.toNat 4 ∧
    (digits v).d0.toNat ≤ 82 ∧ (digits v).d1.toNat ≤ 84 ∧ (digits v).d2.toNat ≤ 84 ∧ (digits v).d3.toNat ≤ 84 ∧
    (digits v).d4.toNat ≤ 84 ∧
    (∀ e0 e1 e2 e3 e4 : Nat, e0 ≤ 84 → e1 ≤ 84 → e2 ≤ 84 → e3 ≤ 84 → e4 ≤ 84 →
      (v.toNat = e0 * 52200625 + e1 * 614125 + e2 * 7225 + e3 * 85 + e4 ↔
        e0 = (digits v).d0.toNat ∧ e1 = (digits v).d1.toNat ∧ e2 = (digits v).d2.toNat ∧
        e3 = (digits v).d3.toNat ∧ e4 = (digits v).d4.toNat))

/-- R115: dividing repeatedly by 85 gives the same five digits, the least significant first. -/
def Obligations.RepeatedDivisionGivesTheSameDigits : Prop :=
  ∀ v : Word, let q0 := v.toNat; let q1 := q0 / 85; let q2 := q1 / 85; let q3 := q2 / 85; let q4 := q3 / 85
    (digits v).d4.toNat = q0 % 85 ∧ (digits v).d3.toNat = q1 % 85 ∧ (digits v).d2.toNat = q2 % 85 ∧
    (digits v).d1.toNat = q3 % 85 ∧ (digits v).d0.toNat = q4 % 85 ∧ (digits v).d0.toNat = q4 ∧ q4 ≤ 82

/-- R122: the boundary value 0xFFFFFFFF is unsigned: digits 82, 23, 54, 12, 0. Their characters are log 9's. -/
def Obligations.BoundaryValueIsUnsigned : Prop :=
  digits 0xFFFFFFFF = ⟨82, 23, 54, 12, 0⟩ ∧
  [charOf 82, charOf 23, charOf 54, charOf 12, charOf 0] = [0x25, 0x6E, 0x53, 0x63, 0x30]

/-- R118 with R111 to R117 and R55: on every view that fits and whose length is a multiple of 4, whatever its cells hold,
`ENC` ends `OK` with `OLEN = LEN/4*5`; character `i` of group `g` is the alphabet's character of digit `i` of the group's
big-endian value; nor does any input change (the working registers of R38 may). That the `OBUF` cells from `OLEN` on
stay as they were is the model's choice (log 5): U2 leaves them any value. -/
def Obligations.EncodeGivesEveryGroup : Prop :=
  ∀ s : State, s.config.Legal → s.off.toNat + s.len.toNat ≤ s.config.cap → s.len.toNat % 4 = 0 →
    ∃ t, exec .enc s = .next t ∧ t.kind = .ok ∧ t.olen.toNat = s.len.toNat / 4 * 5 ∧ t.NoRecord ∧
      t.res = ⟨0, false⟩ ∧
      (∀ g i, g < s.len.toNat / 4 → i < 5 →
        t.obufCell (5 * g + i) = (charOf (BitVec.ofNat 7 (digitOf (s.encValue g) i))).setWidth 8) ∧
      (∀ j, s.len.toNat / 4 * 5 ≤ j → t.obufCell j = s.obufCell j) ∧
      s.SameInputs t ∧ t.obufEpoch = s.obufEpoch ∧ t.output = .ack :: s.output

/-- R119, R76, and R214 for cells never written: every readable cell after a successful `ENC` is the code of an alphabet
character, from 0x21 to 0x7D. The alphabet's codes, and so these bounds, are log 9's. -/
def Obligations.EncodeOutputIsInTheAlphabet : Prop :=
  ∀ s t : State, s.config.Legal → exec .enc s = .next t → t.kind = .ok →
    ∀ k < t.olen.toNat, (valueOf ((t.obufCell k).setWidth 21)).isSome ∧
      0x21 ≤ (t.obufCell k).toNat ∧ (t.obufCell k).toNat ≤ 0x7D

/-- R146: `ENC` is injective on the bytes of views of one length. -/
def Obligations.EncodeIsInjective : Prop :=
  ∀ s t s' t' : State, s.config.Legal → t.config.Legal → s.len = t.len →
    exec .enc s = .next s' → exec .enc t = .next t' → s'.kind = .ok → t'.kind = .ok →
    (∀ j < s'.olen.toNat, s'.obufCell j = t'.obufCell j) →
    ∀ k < s.len.toNat, s.viewByte k = t.viewByte k

/-! ### The decoder -/

/-- R134, R135: the first digit of a group loads the accumulator, a further one gives `(ACC*85 + d) mod 2^32`, and five
steps give the group value modulo 2^32, whatever the accumulator held. -/
def Obligations.HornerGivesTheGroupValue : Prop :=
  ∀ (acc : Word) (d0 d1 d2 d3 d4 : Digit),
    hornerStep true acc d0 = d0.setWidth 32 ∧
    (hornerStep false acc d0).toNat = (acc.toNat * 85 + d0.toNat) % 2 ^ 32 ∧
    (hornerStep false (hornerStep false (hornerStep false (hornerStep false (hornerStep true acc d0) d1) d2) d3)
      d4).toNat =
    (d0.toNat * 85 ^ 4 + d1.toNat * 85 ^ 3 + d2.toNat * 85 ^ 2 + d3.toNat * 85 + d4.toNat) % 2 ^ 32

/-- R137, R53: the four bytes of a group value, the most significant first. -/
def Obligations.UnpackIsBigEndian : Prop :=
  ∀ v : Word, v.toNat = (groupByte v 0).toNat * 2 ^ 24 + (groupByte v 1).toNat * 2 ^ 16 +
    (groupByte v 2).toNat * 2 ^ 8 + (groupByte v 3).toNat

/-- R136: in a view `DEC` accepts, the exact value of a group reaches 2^32 exactly when its digits are (82, 23, 54, 12, 1)
or above in numeral order, and never passes 85^5 - 1. `DEC` then ends `OK` with no record of it and the group's four
bytes are those of the value less 2^32; below 2^32 they are those of the value. -/
def Obligations.OverflowingGroups : Prop :=
  ∀ (s : State) (g : Nat), s.config.Legal → s.off.toNat + s.len.toNat ≤ s.config.cap → s.len.toNat % 5 = 0 →
    s.ViewInAlphabet → g < s.len.toNat / 5 →
    (2 ^ 32 ≤ s.decValue g ↔
      82 < s.viewDigit (5 * g) ∨ s.viewDigit (5 * g) = 82 ∧
        (23 < s.viewDigit (5 * g + 1) ∨ s.viewDigit (5 * g + 1) = 23 ∧
          (54 < s.viewDigit (5 * g + 2) ∨ s.viewDigit (5 * g + 2) = 54 ∧
            (12 < s.viewDigit (5 * g + 3) ∨ s.viewDigit (5 * g + 3) = 12 ∧ 1 ≤ s.viewDigit (5 * g + 4))))) ∧
    s.decValue g ≤ 4437053124 ∧
    ∃ t, exec .dec s = .next t ∧ t.kind = .ok ∧ t.NoRecord ∧ t.res = ⟨0, false⟩ ∧
      (2 ^ 32 ≤ s.decValue g → ∀ k < 4,
        (t.obufCell (4 * g + k)).toNat = (s.decValue g - 2 ^ 32) / 256 ^ (3 - k) % 256) ∧
      (s.decValue g < 2 ^ 32 → ∀ k < 4, (t.obufCell (4 * g + k)).toNat = s.decValue g / 256 ^ (3 - k) % 256)

/-- R141 with R131 to R137 and R55: on every view that fits, whose length is a multiple of 5 and whose characters are
all in the alphabet, `DEC` ends `OK` with `OLEN = LEN/5*4`; byte `k` of group `g` is that of the group's value modulo
2^32, and a value of 2^32 or more wraps with no error and no flag (R136); nor does any input change (the working
registers of R38 may). That the `OBUF` cells from `OLEN` on stay as they were is the model's choice (log 5): U2 leaves
them any value. -/
def Obligations.DecodeGivesEveryGroup : Prop :=
  ∀ s : State, s.config.Legal → s.off.toNat + s.len.toNat ≤ s.config.cap → s.len.toNat % 5 = 0 →
    s.ViewInAlphabet →
    ∃ t, exec .dec s = .next t ∧ t.kind = .ok ∧ t.olen.toNat = s.len.toNat / 5 * 4 ∧ t.NoRecord ∧
      t.res = ⟨0, false⟩ ∧
      (∀ g k, g < s.len.toNat / 5 → k < 4 →
        (t.obufCell (4 * g + k)).toNat = s.decValue g % 2 ^ 32 / 256 ^ (3 - k) % 256) ∧
      (∀ j, s.len.toNat / 5 * 4 ≤ j → t.obufCell j = s.obufCell j) ∧
      s.SameInputs t ∧ t.obufEpoch = s.obufEpoch ∧ t.output = .ack :: s.output

/-- R133, R186, R138: when the character at index `p` is the first outside the alphabet, `DEC` ends `InvalidCharacter`
with that character, all 21 bits, and position `p + 1`; `OLEN` is 0 and nothing else is recorded. The complete groups
before `p` may have been written to `OBUF`, unreadably (R138), and the working registers of R38 may change. That the
`OBUF` cells from those groups on stay as they were is the model's choice (log 5): U2 leaves them any value. -/
def Obligations.FirstInvalidCharacterIsReported : Prop :=
  ∀ (s : State) (p : Nat), s.config.Legal → s.off.toNat + s.len.toNat ≤ s.config.cap → s.len.toNat % 5 = 0 →
    p < s.len.toNat → valueOf (s.viewChar p) = none → (∀ k < p, (valueOf (s.viewChar k)).isSome) →
    ∃ t, exec .dec s = .next t ∧ t.kind = .invalidCharacter ∧ t.echar = s.viewChar p ∧
      t.epos.toNat = p + 1 ∧ t.olen = 0 ∧ t.elen = 0 ∧ t.emult = 0 ∧ t.res = ⟨0, false⟩ ∧ s.SameInputs t ∧
      (∀ j, p / 5 * 4 ≤ j → t.obufCell j = s.obufCell j) ∧ t.obufEpoch = s.obufEpoch ∧ t.output = .ack :: s.output

/-- R58, R133: no cell after the first invalid character has any influence on what `DEC` reports. -/
def Obligations.NothingAfterTheFirstInvalidMatters : Prop :=
  ∀ (s t : State) (p : Nat), s.config.Legal → t.config.Legal →
    s.off.toNat + s.len.toNat ≤ s.config.cap → t.off.toNat + t.len.toNat ≤ t.config.cap →
    s.len.toNat % 5 = 0 → t.len.toNat % 5 = 0 → p < s.len.toNat → p < t.len.toNat →
    (∀ k ≤ p, s.viewChar k = t.viewChar k) → valueOf (s.viewChar p) = none →
    ∃ s' t', exec .dec s = .next s' ∧ exec .dec t = .next t' ∧ s'.SameOutcome t'

/-! ### Laws that relate the two -/

/-- R119: groups are independent: the encoding of the concatenation of two byte sequences whose lengths are multiples of
4 is the concatenation of their encodings. -/
def Obligations.EncodeOfConcatenation : Prop :=
  ∀ s t u t' u' : State, s.config.Legal → t.config.Legal → u.config.Legal →
    exec .enc t = .next t' → t'.kind = .ok → exec .enc u = .next u' → u'.kind = .ok →
    s.off.toNat + s.len.toNat ≤ s.config.cap → s.len.toNat = t.len.toNat + u.len.toNat →
    (∀ k < t.len.toNat, s.viewByte k = t.viewByte k) →
    (∀ k < u.len.toNat, s.viewByte (t.len.toNat + k) = u.viewByte k) →
    ∃ s', exec .enc s = .next s' ∧ s'.kind = .ok ∧ s'.olen.toNat = t'.olen.toNat + u'.olen.toNat ∧
      (∀ j < t'.olen.toNat, s'.obufCell j = t'.obufCell j) ∧
      (∀ j < u'.olen.toNat, s'.obufCell (t'.olen.toNat + j) = u'.obufCell j)

/-- R142: the decoding of the concatenation of two valid strings whose lengths are multiples of 5 is the concatenation of
their decodings. -/
def Obligations.DecodeOfConcatenation : Prop :=
  ∀ s t u t' u' : State, s.config.Legal → t.config.Legal → u.config.Legal →
    exec .dec t = .next t' → t'.kind = .ok → exec .dec u = .next u' → u'.kind = .ok →
    s.off.toNat + s.len.toNat ≤ s.config.cap → s.len.toNat = t.len.toNat + u.len.toNat →
    (∀ k < t.len.toNat, s.viewChar k = t.viewChar k) →
    (∀ k < u.len.toNat, s.viewChar (t.len.toNat + k) = u.viewChar k) →
    ∃ s', exec .dec s = .next s' ∧ s'.kind = .ok ∧ s'.olen.toNat = t'.olen.toNat + u'.olen.toNat ∧
      (∀ j < t'.olen.toNat, s'.obufCell j = t'.obufCell j) ∧
      (∀ j < u'.olen.toNat, s'.obufCell (t'.olen.toNat + j) = u'.obufCell j)

/-- R144: for a view of bytes whose length is a multiple of 4, decoding what `ENC` answers, from a view of any state that
holds it cell by cell, gives the bytes back, with their length. -/
def Obligations.DecodeOfEncodeIsTheBytes : Prop :=
  ∀ s t u : State, s.config.Legal → s.off.toNat + s.len.toNat ≤ s.config.cap → s.len.toNat % 4 = 0 →
    s.BytesInView → exec .enc s = .next t →
    u.config.Legal → u.off.toNat + u.len.toNat ≤ u.config.cap → u.len = t.olen →
    (∀ k < t.olen.toNat, u.viewChar k = (t.obufCell k).setWidth 21) →
    ∃ r, exec .dec u = .next r ∧ r.kind = .ok ∧ r.olen = s.len ∧
      ∀ k < s.len.toNat, (r.obufCell k).setWidth 21 = s.viewChar k

/-- R145, 90_conflicts.md C3: for a string of alphabet characters all of whose groups have exact value below 2^32,
encoding what `DEC` answers gives the string back. -/
def Obligations.EncodeOfDecodeIsTheCanonicalString : Prop :=
  ∀ s t u : State, s.config.Legal → s.off.toNat + s.len.toNat ≤ s.config.cap → s.len.toNat % 5 = 0 →
    s.ViewInAlphabet → (∀ g < s.len.toNat / 5, s.decValue g < 2 ^ 32) → exec .dec s = .next t →
    u.config.Legal → u.off.toNat + u.len.toNat ≤ u.config.cap → u.len = t.olen →
    (∀ k < t.olen.toNat, u.viewChar k = (t.obufCell k).setWidth 21) →
    ∃ r, exec .enc u = .next r ∧ r.kind = .ok ∧ r.olen = s.len ∧
      ∀ k < s.len.toNat, (r.obufCell k).setWidth 21 = s.viewChar k

/-! ### The host driver -/

/-- R190: the fixed wording around the character as itself and the position; the source's two examples and two of
95_test_vectors.md S8, as code points; and the position is the plain decimal numeral of `EPOS`: decimal digits only, no
leading zero, and the value read back is the number. -/
def Obligations.MessageHasTheFixedWording : Prop :=
  (∀ (c : CharCell) (p : Word), invalidCharacterMessage c p =
    codePoints "Character '" ++ c :: codePoints "' in position " ++ decimalDigits 10 p.toNat ++
      codePoints " is not valid Z85") ∧
  invalidCharacterMessage 0x5F 2 = codePoints "Character '_' in position 2 is not valid Z85" ∧
  invalidCharacterMessage 0xD8 3 = codePoints "Character 'Ø' in position 3 is not valid Z85" ∧
  invalidCharacterMessage 0x20 6 = codePoints "Character ' ' in position 6 is not valid Z85" ∧
  invalidCharacterMessage 0x5F 12345 = codePoints "Character '_' in position 12345 is not valid Z85" ∧
  (∀ p : Word,
    (∀ c ∈ decimalDigits 10 p.toNat, 0x30 ≤ c.toNat ∧ c.toNat ≤ 0x39) ∧
    (decimalDigits 10 p.toNat).foldl (fun n c => n * 10 + (c.toNat - 0x30)) 0 = p.toNat ∧
    (p ≠ 0 → (decimalDigits 10 p.toNat).head? ≠ some 0x30))
end

