-- ==== Sys2Proof/Laws/State.lean ====
section
/-! SUPPORT. One lemma per field of State per update of Machine/Ops.lean, so that no later proof unfolds a record
update. -/

namespace Sys2Proof.Machine

section Updates

variable (s : State)

/-! `respond` -/

@[simp] theorem State.respond_config (r : Response) : (s.respond r).config = s.config := rfl
@[simp] theorem State.respond_kind (r : Response) : (s.respond r).kind = s.kind := rfl
@[simp] theorem State.respond_off (r : Response) : (s.respond r).off = s.off := rfl
@[simp] theorem State.respond_len (r : Response) : (s.respond r).len = s.len := rfl
@[simp] theorem State.respond_olen (r : Response) : (s.respond r).olen = s.olen := rfl
@[simp] theorem State.respond_elen (r : Response) : (s.respond r).elen = s.elen := rfl
@[simp] theorem State.respond_emult (r : Response) : (s.respond r).emult = s.emult := rfl
@[simp] theorem State.respond_echar (r : Response) : (s.respond r).echar = s.echar := rfl
@[simp] theorem State.respond_epos (r : Response) : (s.respond r).epos = s.epos := rfl
@[simp] theorem State.respond_arg (r : Response) : (s.respond r).arg = s.arg := rfl
@[simp] theorem State.respond_res (r : Response) : (s.respond r).res = s.res := rfl
@[simp] theorem State.respond_ibuf (r : Response) : (s.respond r).ibuf = s.ibuf := rfl
@[simp] theorem State.respond_obuf (r : Response) : (s.respond r).obuf = s.obuf := rfl
@[simp] theorem State.respond_work (r : Response) : (s.respond r).work = s.work := rfl
@[simp] theorem State.respond_ibufEpoch (r : Response) : (s.respond r).ibufEpoch = s.ibufEpoch := rfl
@[simp] theorem State.respond_obufEpoch (r : Response) : (s.respond r).obufEpoch = s.obufEpoch := rfl
@[simp] theorem State.respond_input (r : Response) : (s.respond r).input = s.input := rfl
@[simp] theorem State.respond_output (r : Response) : (s.respond r).output = r :: s.output := rfl

/-! `prologue` -/

@[simp] theorem State.prologue_config : (s.prologue).config = s.config := rfl
@[simp] theorem State.prologue_kind : (s.prologue).kind = .ok := rfl
@[simp] theorem State.prologue_off : (s.prologue).off = s.off := rfl
@[simp] theorem State.prologue_len : (s.prologue).len = s.len := rfl
@[simp] theorem State.prologue_olen : (s.prologue).olen = 0 := rfl
@[simp] theorem State.prologue_elen : (s.prologue).elen = 0 := rfl
@[simp] theorem State.prologue_emult : (s.prologue).emult = 0 := rfl
@[simp] theorem State.prologue_echar : (s.prologue).echar = 0 := rfl
@[simp] theorem State.prologue_epos : (s.prologue).epos = 0 := rfl
@[simp] theorem State.prologue_arg : (s.prologue).arg = s.arg := rfl
@[simp] theorem State.prologue_res : (s.prologue).res = ⟨0, false⟩ := rfl
@[simp] theorem State.prologue_ibuf : (s.prologue).ibuf = s.ibuf := rfl
@[simp] theorem State.prologue_obuf : (s.prologue).obuf = s.obuf := rfl
@[simp] theorem State.prologue_work : (s.prologue).work = s.work := rfl
@[simp] theorem State.prologue_ibufEpoch : (s.prologue).ibufEpoch = s.ibufEpoch := rfl
@[simp] theorem State.prologue_obufEpoch : (s.prologue).obufEpoch = s.obufEpoch := rfl
@[simp] theorem State.prologue_input : (s.prologue).input = s.input := rfl
@[simp] theorem State.prologue_output : (s.prologue).output = s.output := rfl

/-! `raise_refused` -/

@[simp] theorem State.raise_refused_config : (s.raise .refused).config = s.config := rfl
@[simp] theorem State.raise_refused_kind : (s.raise .refused).kind = .refused := rfl
@[simp] theorem State.raise_refused_off : (s.raise .refused).off = s.off := rfl
@[simp] theorem State.raise_refused_len : (s.raise .refused).len = s.len := rfl
@[simp] theorem State.raise_refused_olen : (s.raise .refused).olen = s.olen := rfl
@[simp] theorem State.raise_refused_elen : (s.raise .refused).elen = s.elen := rfl
@[simp] theorem State.raise_refused_emult : (s.raise .refused).emult = s.emult := rfl
@[simp] theorem State.raise_refused_echar : (s.raise .refused).echar = s.echar := rfl
@[simp] theorem State.raise_refused_epos : (s.raise .refused).epos = s.epos := rfl
@[simp] theorem State.raise_refused_arg : (s.raise .refused).arg = s.arg := rfl
@[simp] theorem State.raise_refused_res : (s.raise .refused).res = s.res := rfl
@[simp] theorem State.raise_refused_ibuf : (s.raise .refused).ibuf = s.ibuf := rfl
@[simp] theorem State.raise_refused_obuf : (s.raise .refused).obuf = s.obuf := rfl
@[simp] theorem State.raise_refused_work : (s.raise .refused).work = s.work := rfl
@[simp] theorem State.raise_refused_ibufEpoch : (s.raise .refused).ibufEpoch = s.ibufEpoch := rfl
@[simp] theorem State.raise_refused_obufEpoch : (s.raise .refused).obufEpoch = s.obufEpoch := rfl
@[simp] theorem State.raise_refused_input : (s.raise .refused).input = s.input := rfl
@[simp] theorem State.raise_refused_output : (s.raise .refused).output = s.output := rfl

/-! `raise_length` -/

@[simp] theorem State.raise_length_config (m : Word) : (s.raise (.invalidLength m)).config = s.config := rfl
@[simp] theorem State.raise_length_kind (m : Word) : (s.raise (.invalidLength m)).kind = .invalidLength := rfl
@[simp] theorem State.raise_length_off (m : Word) : (s.raise (.invalidLength m)).off = s.off := rfl
@[simp] theorem State.raise_length_len (m : Word) : (s.raise (.invalidLength m)).len = s.len := rfl
@[simp] theorem State.raise_length_olen (m : Word) : (s.raise (.invalidLength m)).olen = s.olen := rfl
@[simp] theorem State.raise_length_elen (m : Word) : (s.raise (.invalidLength m)).elen = s.len := rfl
@[simp] theorem State.raise_length_emult (m : Word) : (s.raise (.invalidLength m)).emult = m := rfl
@[simp] theorem State.raise_length_echar (m : Word) : (s.raise (.invalidLength m)).echar = s.echar := rfl
@[simp] theorem State.raise_length_epos (m : Word) : (s.raise (.invalidLength m)).epos = s.epos := rfl
@[simp] theorem State.raise_length_arg (m : Word) : (s.raise (.invalidLength m)).arg = s.arg := rfl
@[simp] theorem State.raise_length_res (m : Word) : (s.raise (.invalidLength m)).res = s.res := rfl
@[simp] theorem State.raise_length_ibuf (m : Word) : (s.raise (.invalidLength m)).ibuf = s.ibuf := rfl
@[simp] theorem State.raise_length_obuf (m : Word) : (s.raise (.invalidLength m)).obuf = s.obuf := rfl
@[simp] theorem State.raise_length_work (m : Word) : (s.raise (.invalidLength m)).work = s.work := rfl
@[simp] theorem State.raise_length_ibufEpoch (m : Word) : (s.raise (.invalidLength m)).ibufEpoch = s.ibufEpoch := rfl
@[simp] theorem State.raise_length_obufEpoch (m : Word) : (s.raise (.invalidLength m)).obufEpoch = s.obufEpoch := rfl
@[simp] theorem State.raise_length_input (m : Word) : (s.raise (.invalidLength m)).input = s.input := rfl
@[simp] theorem State.raise_length_output (m : Word) : (s.raise (.invalidLength m)).output = s.output := rfl

/-! `raise_char` -/

@[simp] theorem State.raise_char_config (c : CharCell) (p : Word) :
    (s.raise (.invalidCharacter c p)).config = s.config := rfl
@[simp] theorem State.raise_char_kind (c : CharCell) (p : Word) :
    (s.raise (.invalidCharacter c p)).kind = .invalidCharacter := rfl
@[simp] theorem State.raise_char_off (c : CharCell) (p : Word) : (s.raise (.invalidCharacter c p)).off = s.off := rfl
@[simp] theorem State.raise_char_len (c : CharCell) (p : Word) : (s.raise (.invalidCharacter c p)).len = s.len := rfl
@[simp] theorem State.raise_char_olen (c : CharCell) (p : Word) :
    (s.raise (.invalidCharacter c p)).olen = s.olen := rfl
@[simp] theorem State.raise_char_elen (c : CharCell) (p : Word) :
    (s.raise (.invalidCharacter c p)).elen = s.elen := rfl
@[simp] theorem State.raise_char_emult (c : CharCell) (p : Word) :
    (s.raise (.invalidCharacter c p)).emult = s.emult := rfl
@[simp] theorem State.raise_char_echar (c : CharCell) (p : Word) : (s.raise (.invalidCharacter c p)).echar = c := rfl
@[simp] theorem State.raise_char_epos (c : CharCell) (p : Word) : (s.raise (.invalidCharacter c p)).epos = p := rfl
@[simp] theorem State.raise_char_arg (c : CharCell) (p : Word) : (s.raise (.invalidCharacter c p)).arg = s.arg := rfl
@[simp] theorem State.raise_char_res (c : CharCell) (p : Word) : (s.raise (.invalidCharacter c p)).res = s.res := rfl
@[simp] theorem State.raise_char_ibuf (c : CharCell) (p : Word) :
    (s.raise (.invalidCharacter c p)).ibuf = s.ibuf := rfl
@[simp] theorem State.raise_char_obuf (c : CharCell) (p : Word) :
    (s.raise (.invalidCharacter c p)).obuf = s.obuf := rfl
@[simp] theorem State.raise_char_work (c : CharCell) (p : Word) :
    (s.raise (.invalidCharacter c p)).work = s.work := rfl
@[simp] theorem State.raise_char_ibufEpoch (c : CharCell) (p : Word) :
    (s.raise (.invalidCharacter c p)).ibufEpoch = s.ibufEpoch := rfl
@[simp] theorem State.raise_char_obufEpoch (c : CharCell) (p : Word) :
    (s.raise (.invalidCharacter c p)).obufEpoch = s.obufEpoch := rfl
@[simp] theorem State.raise_char_input (c : CharCell) (p : Word) :
    (s.raise (.invalidCharacter c p)).input = s.input := rfl
@[simp] theorem State.raise_char_output (c : CharCell) (p : Word) :
    (s.raise (.invalidCharacter c p)).output = s.output := rfl

/-! `finish` -/

@[simp] theorem State.finish_config (n : Word) : (s.finish n).config = s.config := rfl
@[simp] theorem State.finish_kind (n : Word) : (s.finish n).kind = .ok := rfl
@[simp] theorem State.finish_off (n : Word) : (s.finish n).off = s.off := rfl
@[simp] theorem State.finish_len (n : Word) : (s.finish n).len = s.len := rfl
@[simp] theorem State.finish_olen (n : Word) : (s.finish n).olen = n := rfl
@[simp] theorem State.finish_elen (n : Word) : (s.finish n).elen = s.elen := rfl
@[simp] theorem State.finish_emult (n : Word) : (s.finish n).emult = s.emult := rfl
@[simp] theorem State.finish_echar (n : Word) : (s.finish n).echar = s.echar := rfl
@[simp] theorem State.finish_epos (n : Word) : (s.finish n).epos = s.epos := rfl
@[simp] theorem State.finish_arg (n : Word) : (s.finish n).arg = s.arg := rfl
@[simp] theorem State.finish_res (n : Word) : (s.finish n).res = s.res := rfl
@[simp] theorem State.finish_ibuf (n : Word) : (s.finish n).ibuf = s.ibuf := rfl
@[simp] theorem State.finish_obuf (n : Word) : (s.finish n).obuf = s.obuf := rfl
@[simp] theorem State.finish_work (n : Word) : (s.finish n).work = s.work := rfl
@[simp] theorem State.finish_ibufEpoch (n : Word) : (s.finish n).ibufEpoch = s.ibufEpoch := rfl
@[simp] theorem State.finish_obufEpoch (n : Word) : (s.finish n).obufEpoch = s.obufEpoch := rfl
@[simp] theorem State.finish_input (n : Word) : (s.finish n).input = s.input := rfl
@[simp] theorem State.finish_output (n : Word) : (s.finish n).output = s.output := rfl

/-! `finishTable` -/

@[simp] theorem State.finishTable_config (r : Res) : (s.finishTable r).config = s.config := rfl
@[simp] theorem State.finishTable_kind (r : Res) : (s.finishTable r).kind = .ok := rfl
@[simp] theorem State.finishTable_off (r : Res) : (s.finishTable r).off = s.off := rfl
@[simp] theorem State.finishTable_len (r : Res) : (s.finishTable r).len = s.len := rfl
@[simp] theorem State.finishTable_olen (r : Res) : (s.finishTable r).olen = s.olen := rfl
@[simp] theorem State.finishTable_elen (r : Res) : (s.finishTable r).elen = s.elen := rfl
@[simp] theorem State.finishTable_emult (r : Res) : (s.finishTable r).emult = s.emult := rfl
@[simp] theorem State.finishTable_echar (r : Res) : (s.finishTable r).echar = s.echar := rfl
@[simp] theorem State.finishTable_epos (r : Res) : (s.finishTable r).epos = s.epos := rfl
@[simp] theorem State.finishTable_arg (r : Res) : (s.finishTable r).arg = s.arg := rfl
@[simp] theorem State.finishTable_res (r : Res) : (s.finishTable r).res = r := rfl
@[simp] theorem State.finishTable_ibuf (r : Res) : (s.finishTable r).ibuf = s.ibuf := rfl
@[simp] theorem State.finishTable_obuf (r : Res) : (s.finishTable r).obuf = s.obuf := rfl
@[simp] theorem State.finishTable_work (r : Res) : (s.finishTable r).work = s.work := rfl
@[simp] theorem State.finishTable_ibufEpoch (r : Res) : (s.finishTable r).ibufEpoch = s.ibufEpoch := rfl
@[simp] theorem State.finishTable_obufEpoch (r : Res) : (s.finishTable r).obufEpoch = s.obufEpoch := rfl
@[simp] theorem State.finishTable_input (r : Res) : (s.finishTable r).input = s.input := rfl
@[simp] theorem State.finishTable_output (r : Res) : (s.finishTable r).output = s.output := rfl

/-! `beginScan` -/

@[simp] theorem State.beginScan_config : (s.beginScan).config = s.config := rfl
@[simp] theorem State.beginScan_kind : (s.beginScan).kind = s.kind := rfl
@[simp] theorem State.beginScan_off : (s.beginScan).off = s.off := rfl
@[simp] theorem State.beginScan_len : (s.beginScan).len = s.len := rfl
@[simp] theorem State.beginScan_olen : (s.beginScan).olen = s.olen := rfl
@[simp] theorem State.beginScan_elen : (s.beginScan).elen = s.elen := rfl
@[simp] theorem State.beginScan_emult : (s.beginScan).emult = s.emult := rfl
@[simp] theorem State.beginScan_echar : (s.beginScan).echar = s.echar := rfl
@[simp] theorem State.beginScan_epos : (s.beginScan).epos = s.epos := rfl
@[simp] theorem State.beginScan_arg : (s.beginScan).arg = s.arg := rfl
@[simp] theorem State.beginScan_res : (s.beginScan).res = s.res := rfl
@[simp] theorem State.beginScan_ibuf : (s.beginScan).ibuf = s.ibuf := rfl
@[simp] theorem State.beginScan_obuf : (s.beginScan).obuf = s.obuf := rfl
@[simp] theorem State.beginScan_work : (s.beginScan).work = { s.work with pos := 0, gi := 0, errl := false } := rfl
@[simp] theorem State.beginScan_ibufEpoch : (s.beginScan).ibufEpoch = s.ibufEpoch := rfl
@[simp] theorem State.beginScan_obufEpoch : (s.beginScan).obufEpoch = s.obufEpoch := rfl
@[simp] theorem State.beginScan_input : (s.beginScan).input = s.input := rfl
@[simp] theorem State.beginScan_output : (s.beginScan).output = s.output := rfl

/-! `advance` -/

@[simp] theorem State.advance_config (n : Nat) : (s.advance n).config = s.config := rfl
@[simp] theorem State.advance_kind (n : Nat) : (s.advance n).kind = s.kind := rfl
@[simp] theorem State.advance_off (n : Nat) : (s.advance n).off = s.off := rfl
@[simp] theorem State.advance_len (n : Nat) : (s.advance n).len = s.len := rfl
@[simp] theorem State.advance_olen (n : Nat) : (s.advance n).olen = s.olen := rfl
@[simp] theorem State.advance_elen (n : Nat) : (s.advance n).elen = s.elen := rfl
@[simp] theorem State.advance_emult (n : Nat) : (s.advance n).emult = s.emult := rfl
@[simp] theorem State.advance_echar (n : Nat) : (s.advance n).echar = s.echar := rfl
@[simp] theorem State.advance_epos (n : Nat) : (s.advance n).epos = s.epos := rfl
@[simp] theorem State.advance_arg (n : Nat) : (s.advance n).arg = s.arg := rfl
@[simp] theorem State.advance_res (n : Nat) : (s.advance n).res = s.res := rfl
@[simp] theorem State.advance_ibuf (n : Nat) : (s.advance n).ibuf = s.ibuf := rfl
@[simp] theorem State.advance_obuf (n : Nat) : (s.advance n).obuf = s.obuf := rfl
@[simp] theorem State.advance_work (n : Nat) :
    (s.advance n).work = { s.work with pos := s.work.pos + 1, gi := BitVec.ofNat 3 ((s.work.gi.toNat + 1) % n) } := rfl
@[simp] theorem State.advance_ibufEpoch (n : Nat) : (s.advance n).ibufEpoch = s.ibufEpoch := rfl
@[simp] theorem State.advance_obufEpoch (n : Nat) : (s.advance n).obufEpoch = s.obufEpoch := rfl
@[simp] theorem State.advance_input (n : Nat) : (s.advance n).input = s.input := rfl
@[simp] theorem State.advance_output (n : Nat) : (s.advance n).output = s.output := rfl

/-! `writeIbuf` -/

@[simp] theorem State.writeIbuf_config (i : Nat) (v : CharCell) : (s.writeIbuf i v).config = s.config := rfl
@[simp] theorem State.writeIbuf_kind (i : Nat) (v : CharCell) : (s.writeIbuf i v).kind = s.kind := rfl
@[simp] theorem State.writeIbuf_off (i : Nat) (v : CharCell) : (s.writeIbuf i v).off = s.off := rfl
@[simp] theorem State.writeIbuf_len (i : Nat) (v : CharCell) : (s.writeIbuf i v).len = s.len := rfl
@[simp] theorem State.writeIbuf_olen (i : Nat) (v : CharCell) : (s.writeIbuf i v).olen = s.olen := rfl
@[simp] theorem State.writeIbuf_elen (i : Nat) (v : CharCell) : (s.writeIbuf i v).elen = s.elen := rfl
@[simp] theorem State.writeIbuf_emult (i : Nat) (v : CharCell) : (s.writeIbuf i v).emult = s.emult := rfl
@[simp] theorem State.writeIbuf_echar (i : Nat) (v : CharCell) : (s.writeIbuf i v).echar = s.echar := rfl
@[simp] theorem State.writeIbuf_epos (i : Nat) (v : CharCell) : (s.writeIbuf i v).epos = s.epos := rfl
@[simp] theorem State.writeIbuf_arg (i : Nat) (v : CharCell) : (s.writeIbuf i v).arg = s.arg := rfl
@[simp] theorem State.writeIbuf_res (i : Nat) (v : CharCell) : (s.writeIbuf i v).res = s.res := rfl
@[simp] theorem State.writeIbuf_ibuf (i : Nat) (v : CharCell) :
    (s.writeIbuf i v).ibuf = Memory.write s.ibuf i v := rfl
@[simp] theorem State.writeIbuf_obuf (i : Nat) (v : CharCell) : (s.writeIbuf i v).obuf = s.obuf := rfl
@[simp] theorem State.writeIbuf_work (i : Nat) (v : CharCell) : (s.writeIbuf i v).work = s.work := rfl
@[simp] theorem State.writeIbuf_ibufEpoch (i : Nat) (v : CharCell) : (s.writeIbuf i v).ibufEpoch = s.ibufEpoch := rfl
@[simp] theorem State.writeIbuf_obufEpoch (i : Nat) (v : CharCell) : (s.writeIbuf i v).obufEpoch = s.obufEpoch := rfl
@[simp] theorem State.writeIbuf_input (i : Nat) (v : CharCell) : (s.writeIbuf i v).input = s.input := rfl
@[simp] theorem State.writeIbuf_output (i : Nat) (v : CharCell) : (s.writeIbuf i v).output = s.output := rfl

/-! `writeObuf` -/

@[simp] theorem State.writeObuf_config (j : Nat) (v : Byte) : (s.writeObuf j v).config = s.config := rfl
@[simp] theorem State.writeObuf_kind (j : Nat) (v : Byte) : (s.writeObuf j v).kind = s.kind := rfl
@[simp] theorem State.writeObuf_off (j : Nat) (v : Byte) : (s.writeObuf j v).off = s.off := rfl
@[simp] theorem State.writeObuf_len (j : Nat) (v : Byte) : (s.writeObuf j v).len = s.len := rfl
@[simp] theorem State.writeObuf_olen (j : Nat) (v : Byte) : (s.writeObuf j v).olen = s.olen := rfl
@[simp] theorem State.writeObuf_elen (j : Nat) (v : Byte) : (s.writeObuf j v).elen = s.elen := rfl
@[simp] theorem State.writeObuf_emult (j : Nat) (v : Byte) : (s.writeObuf j v).emult = s.emult := rfl
@[simp] theorem State.writeObuf_echar (j : Nat) (v : Byte) : (s.writeObuf j v).echar = s.echar := rfl
@[simp] theorem State.writeObuf_epos (j : Nat) (v : Byte) : (s.writeObuf j v).epos = s.epos := rfl
@[simp] theorem State.writeObuf_arg (j : Nat) (v : Byte) : (s.writeObuf j v).arg = s.arg := rfl
@[simp] theorem State.writeObuf_res (j : Nat) (v : Byte) : (s.writeObuf j v).res = s.res := rfl
@[simp] theorem State.writeObuf_ibuf (j : Nat) (v : Byte) : (s.writeObuf j v).ibuf = s.ibuf := rfl
@[simp] theorem State.writeObuf_obuf (j : Nat) (v : Byte) : (s.writeObuf j v).obuf = Memory.write s.obuf j v := rfl
@[simp] theorem State.writeObuf_work (j : Nat) (v : Byte) : (s.writeObuf j v).work = s.work := rfl
@[simp] theorem State.writeObuf_ibufEpoch (j : Nat) (v : Byte) : (s.writeObuf j v).ibufEpoch = s.ibufEpoch := rfl
@[simp] theorem State.writeObuf_obufEpoch (j : Nat) (v : Byte) : (s.writeObuf j v).obufEpoch = s.obufEpoch := rfl
@[simp] theorem State.writeObuf_input (j : Nat) (v : Byte) : (s.writeObuf j v).input = s.input := rfl
@[simp] theorem State.writeObuf_output (j : Nat) (v : Byte) : (s.writeObuf j v).output = s.output := rfl

/-! `pushTransaction` -/

@[simp] theorem State.pushTransaction_config (w : BusWord) : (s.pushTransaction w).config = s.config := rfl
@[simp] theorem State.pushTransaction_kind (w : BusWord) : (s.pushTransaction w).kind = s.kind := rfl
@[simp] theorem State.pushTransaction_off (w : BusWord) : (s.pushTransaction w).off = s.off := rfl
@[simp] theorem State.pushTransaction_len (w : BusWord) : (s.pushTransaction w).len = s.len := rfl
@[simp] theorem State.pushTransaction_olen (w : BusWord) : (s.pushTransaction w).olen = s.olen := rfl
@[simp] theorem State.pushTransaction_elen (w : BusWord) : (s.pushTransaction w).elen = s.elen := rfl
@[simp] theorem State.pushTransaction_emult (w : BusWord) : (s.pushTransaction w).emult = s.emult := rfl
@[simp] theorem State.pushTransaction_echar (w : BusWord) : (s.pushTransaction w).echar = s.echar := rfl
@[simp] theorem State.pushTransaction_epos (w : BusWord) : (s.pushTransaction w).epos = s.epos := rfl
@[simp] theorem State.pushTransaction_arg (w : BusWord) : (s.pushTransaction w).arg = s.arg := rfl
@[simp] theorem State.pushTransaction_res (w : BusWord) : (s.pushTransaction w).res = s.res := rfl
@[simp] theorem State.pushTransaction_ibuf (w : BusWord) : (s.pushTransaction w).ibuf = s.ibuf := rfl
@[simp] theorem State.pushTransaction_obuf (w : BusWord) : (s.pushTransaction w).obuf = s.obuf := rfl
@[simp] theorem State.pushTransaction_work (w : BusWord) : (s.pushTransaction w).work = s.work := rfl
@[simp] theorem State.pushTransaction_ibufEpoch (w : BusWord) : (s.pushTransaction w).ibufEpoch = s.ibufEpoch := rfl
@[simp] theorem State.pushTransaction_obufEpoch (w : BusWord) : (s.pushTransaction w).obufEpoch = s.obufEpoch := rfl
@[simp] theorem State.pushTransaction_input (w : BusWord) :
    (s.pushTransaction w).input = .transaction w :: s.input := rfl
@[simp] theorem State.pushTransaction_output (w : BusWord) : (s.pushTransaction w).output = s.output := rfl

/-! `applyReset` -/

@[simp] theorem State.applyReset_config : (s.applyReset).config = s.config := rfl
@[simp] theorem State.applyReset_kind : (s.applyReset).kind = .ok := rfl
@[simp] theorem State.applyReset_off : (s.applyReset).off = 0 := rfl
@[simp] theorem State.applyReset_len : (s.applyReset).len = 0 := rfl
@[simp] theorem State.applyReset_olen : (s.applyReset).olen = 0 := rfl
@[simp] theorem State.applyReset_elen : (s.applyReset).elen = 0 := rfl
@[simp] theorem State.applyReset_emult : (s.applyReset).emult = 0 := rfl
@[simp] theorem State.applyReset_echar : (s.applyReset).echar = 0 := rfl
@[simp] theorem State.applyReset_epos : (s.applyReset).epos = 0 := rfl
@[simp] theorem State.applyReset_arg : (s.applyReset).arg = 0 := rfl
@[simp] theorem State.applyReset_res : (s.applyReset).res = ⟨0, false⟩ := rfl
@[simp] theorem State.applyReset_ibuf : (s.applyReset).ibuf = s.ibuf := rfl
@[simp] theorem State.applyReset_obuf : (s.applyReset).obuf = s.obuf := rfl
@[simp] theorem State.applyReset_work : (s.applyReset).work = Work.zero := rfl
@[simp] theorem State.applyReset_ibufEpoch : (s.applyReset).ibufEpoch = s.ibufEpoch := rfl
@[simp] theorem State.applyReset_obufEpoch : (s.applyReset).obufEpoch = s.obufEpoch := rfl
@[simp] theorem State.applyReset_input : (s.applyReset).input = s.input := rfl
@[simp] theorem State.applyReset_output : (s.applyReset).output = s.output := rfl

/-! `applyResetDuringCommand` -/

@[simp] theorem State.applyResetDuringCommand_config : (s.applyResetDuringCommand).config = s.config := rfl
@[simp] theorem State.applyResetDuringCommand_kind : (s.applyResetDuringCommand).kind = .ok := rfl
@[simp] theorem State.applyResetDuringCommand_off : (s.applyResetDuringCommand).off = 0 := rfl
@[simp] theorem State.applyResetDuringCommand_len : (s.applyResetDuringCommand).len = 0 := rfl
@[simp] theorem State.applyResetDuringCommand_olen : (s.applyResetDuringCommand).olen = 0 := rfl
@[simp] theorem State.applyResetDuringCommand_elen : (s.applyResetDuringCommand).elen = 0 := rfl
@[simp] theorem State.applyResetDuringCommand_emult : (s.applyResetDuringCommand).emult = 0 := rfl
@[simp] theorem State.applyResetDuringCommand_echar : (s.applyResetDuringCommand).echar = 0 := rfl
@[simp] theorem State.applyResetDuringCommand_epos : (s.applyResetDuringCommand).epos = 0 := rfl
@[simp] theorem State.applyResetDuringCommand_arg : (s.applyResetDuringCommand).arg = 0 := rfl
@[simp] theorem State.applyResetDuringCommand_res : (s.applyResetDuringCommand).res = ⟨0, false⟩ := rfl
@[simp] theorem State.applyResetDuringCommand_ibuf : (s.applyResetDuringCommand).ibuf = s.ibuf := rfl
@[simp] theorem State.applyResetDuringCommand_obuf : (s.applyResetDuringCommand).obuf = [] := rfl
@[simp] theorem State.applyResetDuringCommand_work : (s.applyResetDuringCommand).work = Work.zero := rfl
@[simp] theorem State.applyResetDuringCommand_ibufEpoch : (s.applyResetDuringCommand).ibufEpoch = s.ibufEpoch := rfl
@[simp] theorem State.applyResetDuringCommand_obufEpoch :
    (s.applyResetDuringCommand).obufEpoch = s.obufEpoch + 1 := rfl
@[simp] theorem State.applyResetDuringCommand_input : (s.applyResetDuringCommand).input = s.input := rfl
@[simp] theorem State.applyResetDuringCommand_output : (s.applyResetDuringCommand).output = s.output := rfl

/-! `applyPowerOn` -/

@[simp] theorem State.applyPowerOn_config : (s.applyPowerOn).config = s.config := rfl
@[simp] theorem State.applyPowerOn_kind : (s.applyPowerOn).kind = .ok := rfl
@[simp] theorem State.applyPowerOn_off : (s.applyPowerOn).off = 0 := rfl
@[simp] theorem State.applyPowerOn_len : (s.applyPowerOn).len = 0 := rfl
@[simp] theorem State.applyPowerOn_olen : (s.applyPowerOn).olen = 0 := rfl
@[simp] theorem State.applyPowerOn_elen : (s.applyPowerOn).elen = 0 := rfl
@[simp] theorem State.applyPowerOn_emult : (s.applyPowerOn).emult = 0 := rfl
@[simp] theorem State.applyPowerOn_echar : (s.applyPowerOn).echar = 0 := rfl
@[simp] theorem State.applyPowerOn_epos : (s.applyPowerOn).epos = 0 := rfl
@[simp] theorem State.applyPowerOn_arg : (s.applyPowerOn).arg = 0 := rfl
@[simp] theorem State.applyPowerOn_res : (s.applyPowerOn).res = ⟨0, false⟩ := rfl
@[simp] theorem State.applyPowerOn_ibuf : (s.applyPowerOn).ibuf = [] := rfl
@[simp] theorem State.applyPowerOn_obuf : (s.applyPowerOn).obuf = [] := rfl
@[simp] theorem State.applyPowerOn_work : (s.applyPowerOn).work = Work.zero := rfl
@[simp] theorem State.applyPowerOn_ibufEpoch : (s.applyPowerOn).ibufEpoch = s.ibufEpoch + 1 := rfl
@[simp] theorem State.applyPowerOn_obufEpoch : (s.applyPowerOn).obufEpoch = s.obufEpoch + 1 := rfl
@[simp] theorem State.applyPowerOn_input : (s.applyPowerOn).input = s.input := rfl
@[simp] theorem State.applyPowerOn_output : (s.applyPowerOn).output = s.output := rfl

end Updates

end Sys2Proof.Machine
end

