-- ==== Sys2Proof/Laws/Memory.lean ====
section
/-! SUPPORT. Reading after writing a buffer, and that every buffer operation keeps the canonical form and its bound. -/

namespace Sys2Proof.Machine

theorem Memory.read_write {w : Nat} (m : Memory w) (i k : Nat) (v : BitVec w) :
    Memory.read (Memory.write m i v) k = if k = i then some v else Memory.read m k := by
  induction m with
  | nil => simp [Memory.write, Memory.read]
  | cons c m ih =>
    obtain ⟨j, x⟩ := c
    simp only [Memory.write]
    split
    · simp [Memory.read]
    · split
      · subst j; simp only [Memory.read]; split <;> rfl
      · simp only [Memory.read, ih]
        split
        · next h => subst h; rw [if_neg (by omega)]
        · rfl

/-- The first listed index bounds the rest from below. -/
theorem Memory.wf_cons {w : Nat} (i : Nat) (x : BitVec w) (m : Memory w) :
    Memory.wf ((i, x) :: m) = true ↔ (∀ c ∈ m.head?, i < c.1) ∧ Memory.wf m = true := by
  cases m with
  | nil => simp [Memory.wf]
  | cons c m => obtain ⟨j, y⟩ := c; simp [Memory.wf]

theorem Memory.head_write {w : Nat} (m : Memory w) (i b : Nat) (v : BitVec w) (hb : b < i)
    (h : ∀ c ∈ m.head?, b < c.1) : ∀ c ∈ (Memory.write m i v).head?, b < c.1 := by
  cases m with
  | nil => simpa [Memory.write] using hb
  | cons c m =>
    obtain ⟨j, x⟩ := c
    simp only [Memory.write]
    split
    · simpa using hb
    · split
      · simpa using hb
      · simpa using h

/-- Every write keeps the canonical form. -/
theorem Memory.wf_write {w : Nat} (m : Memory w) (i : Nat) (v : BitVec w) (h : Memory.wf m = true) :
    Memory.wf (Memory.write m i v) = true := by
  induction m with
  | nil => rfl
  | cons c m ih =>
    obtain ⟨j, x⟩ := c
    have h' := (Memory.wf_cons j x m).1 h
    simp only [Memory.write]
    split
    · rw [Memory.wf_cons]; exact ⟨by simpa, h⟩
    · split
      · subst j; rw [Memory.wf_cons]; exact h'
      · rw [Memory.wf_cons]
        exact ⟨Memory.head_write m i j v (by omega) h'.1, ih h'.2⟩

/-- A write below the bound keeps the bound. -/
theorem Memory.below_write {w : Nat} (m : Memory w) (i n : Nat) (v : BitVec w) (hi : i < n)
    (h : Memory.below m n = true) : Memory.below (Memory.write m i v) n = true := by
  induction m with
  | nil => simpa [Memory.write, Memory.below] using hi
  | cons c m ih =>
    obtain ⟨j, x⟩ := c
    simp only [Memory.below, List.all_cons, Bool.and_eq_true, decide_eq_true_eq] at h ih
    simp only [Memory.write]
    split
    · simp only [Memory.below, List.all_cons, Bool.and_eq_true, decide_eq_true_eq]; exact ⟨hi, h⟩
    · split
      · simp only [Memory.below, List.all_cons, Bool.and_eq_true, decide_eq_true_eq]; exact ⟨hi, h.2⟩
      · simp only [Memory.below, List.all_cons, Bool.and_eq_true, decide_eq_true_eq]; exact ⟨h.1, ih h.2⟩

/-- Below the first listed index nothing is listed. -/
theorem Memory.read_before {w : Nat} (m : Memory w) (i : Nat) (hw : Memory.wf m = true)
    (h : ∀ c ∈ m.head?, i < c.1) : Memory.read m i = none := by
  induction m with
  | nil => rfl
  | cons c m ih =>
    obtain ⟨j, x⟩ := c
    have hj : i < j := by simpa using h
    have h' := (Memory.wf_cons j x m).1 hw
    rw [Memory.read, if_neg (by omega)]
    exact ih h'.2 fun c hc => Nat.lt_trans hj (h'.1 c hc)

/-- Canonical buffers that read alike are the same list. -/
theorem Memory.eq_of_read {w : Nat} (m n : Memory w) (hm : Memory.wf m = true) (hn : Memory.wf n = true)
    (h : ∀ i, Memory.read m i = Memory.read n i) : m = n := by
  induction m generalizing n with
  | nil =>
    cases n with
    | nil => rfl
    | cons c n => have := h c.1; simp [Memory.read] at this
  | cons c m ih =>
    obtain ⟨i, x⟩ := c
    have hm' := (Memory.wf_cons i x m).1 hm
    cases n with
    | nil => have := h i; simp [Memory.read] at this
    | cons d n =>
      obtain ⟨j, y⟩ := d
      have hn' := (Memory.wf_cons j y n).1 hn
      have hij : i = j := by
        rcases Nat.lt_trichotomy i j with hlt | heq | hgt
        · have := Memory.read_before ((j, y) :: n) i hn (by simpa using hlt)
          rw [← h i] at this; simp [Memory.read] at this
        · exact heq
        · have := Memory.read_before ((i, x) :: m) j hm (by simpa using hgt)
          rw [h j] at this; simp [Memory.read] at this
      subst hij
      have hxy : x = y := by simpa [Memory.read] using h i
      subst hxy
      rw [ih n hm'.2 hn'.2 fun k => ?_]
      by_cases hk : k = i
      · subst hk
        rw [Memory.read_before m k hm'.2 hm'.1, Memory.read_before n k hn'.2 hn'.1]
      · simpa [Memory.read, hk] using h k

/-- The two operations that write a buffer keep the canonical form, and both buffers have it in State.reset. -/
theorem State.writeIbuf_wf (s : State) (i : Nat) (v : CharCell) (h : Memory.wf s.ibuf = true) :
    Memory.wf (s.writeIbuf i v).ibuf = true := Memory.wf_write s.ibuf i v h

theorem State.writeObuf_wf (s : State) (j : Nat) (v : Byte) (h : Memory.wf s.obuf = true) :
    Memory.wf (s.writeObuf j v).obuf = true := Memory.wf_write s.obuf j v h

theorem State.reset_wf : Memory.wf State.reset.ibuf = true ∧ Memory.wf State.reset.obuf = true := ⟨rfl, rfl⟩

/-! ### Cells of the two buffers -/

theorem State.obufCell_writeObuf (s : State) (j k : Nat) (v : Byte) :
    (s.writeObuf j v).obufCell k = if k = j then v else s.obufCell k := by
  simp only [State.obufCell, State.writeObuf_obuf, State.writeObuf_obufEpoch, Memory.read_write]
  split <;> rfl

theorem State.ibufCell_writeIbuf (s : State) (i k : Nat) (v : CharCell) :
    (s.writeIbuf i v).ibufCell k = if k = i then v else s.ibufCell k := by
  simp only [State.ibufCell, State.writeIbuf_ibuf, State.writeIbuf_ibufEpoch, Memory.read_write]
  split <;> rfl

/-- What an `OBUF` cell holds depends on the two fields of `OBUF` alone. -/
theorem State.obufCell_congr {s t : State} (h : t.obuf = s.obuf) (he : t.obufEpoch = s.obufEpoch) (j : Nat) :
    t.obufCell j = s.obufCell j := by
  simp only [State.obufCell, h, he]

/-- What an `IBUF` cell holds depends on the two fields of `IBUF` alone. -/
theorem State.ibufCell_congr {s t : State} (h : t.ibuf = s.ibuf) (he : t.ibufEpoch = s.ibufEpoch) (i : Nat) :
    t.ibufCell i = s.ibufCell i := by
  simp only [State.ibufCell, h, he]

/-- `SameInputs` from its fields: the cells follow. -/
theorem State.SameInputs.mk' {s t : State} (config : t.config = s.config) (off : t.off = s.off) (len : t.len = s.len)
    (arg : t.arg = s.arg) (ibuf : t.ibuf = s.ibuf) (ibufEpoch : t.ibufEpoch = s.ibufEpoch)
    (input : t.input = s.input) : s.SameInputs t :=
  ⟨config, off, len, arg, ibuf, ibufEpoch, State.ibufCell_congr ibuf ibufEpoch, input⟩

end Sys2Proof.Machine
end

