-- ==== Sys2Proof/Laws/Decode.lean ====
section
/-! SUPPORT. The fields of the two formats in natural numbers (30_encoding.md R71, R72), and that the `BUS` tuple is its
three fields. -/

namespace Sys2Proof

/-- The tuple as a number, `we` most significant (R71). -/
theorem busWord_toNat (we : Bool) (a : BusAddr) (d : Word) :
    (busWord we a d).toNat = we.toNat * 2 ^ 50 + a.toNat * 2 ^ 32 + d.toNat := by
  have ha := a.isLt
  have hd := d.isLt
  simp only [busWord, BitVec.toNat_append, BitVec.toNat_ofBool]
  rw [← Nat.shiftLeft_add_eq_or_of_lt ha, ← Nat.shiftLeft_add_eq_or_of_lt hd, Nat.shiftLeft_eq, Nat.shiftLeft_eq]
  omega

theorem busAddr_toNat (w : BusWord) : (busAddr w).toNat = w.toNat / 2 ^ 32 % 2 ^ 18 := by
  rw [busAddr, BitVec.extractLsb'_toNat, Nat.shiftRight_eq_div_pow]

theorem busData_toNat (w : BusWord) : (busData w).toNat = w.toNat % 2 ^ 32 := by
  rw [busData, BitVec.extractLsb'_toNat, Nat.shiftRight_eq_div_pow, Nat.pow_zero, Nat.div_one]

theorem busWe_iff (w : BusWord) : busWe w = true ↔ 2 ^ 50 ≤ w.toNat := by
  have h := w.isLt
  rw [busWe, BitVec.getLsbD, Nat.testBit_eq_decide_div_mod_eq, decide_eq_true_eq]
  omega

@[simp] theorem busWe_busWord (we : Bool) (a : BusAddr) (d : Word) : busWe (busWord we a d) = we := by
  have ha := a.isLt
  have hd := d.isLt
  have h := busWe_iff (busWord we a d)
  rw [busWord_toNat] at h
  cases we
  · rw [← Bool.not_eq_true, h, Bool.toNat_false]; omega
  · rw [h, Bool.toNat_true]; omega

@[simp] theorem busAddr_busWord (we : Bool) (a : BusAddr) (d : Word) : busAddr (busWord we a d) = a := by
  have ha := a.isLt
  have hd := d.isLt
  apply BitVec.eq_of_toNat_eq
  rw [busAddr_toNat, busWord_toNat]
  omega

@[simp] theorem busData_busWord (we : Bool) (a : BusAddr) (d : Word) : busData (busWord we a d) = d := by
  have ha := a.isLt
  have hd := d.isLt
  apply BitVec.eq_of_toNat_eq
  rw [busData_toNat, busWord_toNat]
  omega

/-- A word is the tuple of its fields. -/
theorem busWord_fields (w : BusWord) : busWord (busWe w) (busAddr w) (busData w) = w := by
  have h := w.isLt
  have hw := busWe_iff w
  apply BitVec.eq_of_toNat_eq
  rw [busWord_toNat, busAddr_toNat, busData_toNat]
  cases hb : busWe w
  · rw [hb] at hw
    have : ¬ 2 ^ 50 ≤ w.toNat := fun hge => Bool.noConfusion (hw.2 hge)
    rw [Bool.toNat_false]; omega
  · have := hw.1 hb
    rw [Bool.toNat_true]; omega

/-- `ZERO` is 0 exactly below 16 (R72). -/
theorem cmdZero_eq_zero (w : Word) : cmdZero w = 0 ↔ w.toNat < 16 := by
  have h := w.isLt
  have h0 : (0 : BitVec 28).toNat = 0 := rfl
  rw [cmdZero, ← BitVec.toNat_inj, BitVec.extractLsb'_toNat, Nat.shiftRight_eq_div_pow, h0]
  omega

/-- `CODE` is the word modulo 16 (R72). -/
theorem cmdCode_eq (w : Word) (k : Nat) (hk : k < 16) : cmdCode w = BitVec.ofNat 4 k ↔ w.toNat % 16 = k := by
  rw [cmdCode, ← BitVec.toNat_inj, BitVec.extractLsb'_toNat, BitVec.toNat_ofNat, Nat.shiftRight_eq_div_pow,
    Nat.pow_zero, Nat.div_one]
  omega

end Sys2Proof
end

