-- ==== Sys2Proof/Laws/Scan.lean ====
section
/-! SUPPORT. The sequencer's loop, packaged once: running it in two parts, stopping, and the induction over its cells;
and the frame of what a cell of either datapath touches. -/

namespace Sys2Proof.Machine

/-- `t` is `s` but for `OBUF` and the working registers. -/
def OnlyOutputAndWork (s t : State) : Prop := ∃ (o : Memory 8) (w : Work), t = { s with obuf := o, work := w }

theorem OnlyOutputAndWork.trans {s t u : State} (h : OnlyOutputAndWork s t) (h' : OnlyOutputAndWork t u) :
    OnlyOutputAndWork s u := by
  obtain ⟨o, w, rfl⟩ := h
  obtain ⟨o', w', rfl⟩ := h'
  exact ⟨o', w', rfl⟩

theorem OnlyOutputAndWork.eq {s t : State} (h : OnlyOutputAndWork s t) :
    t = { s with obuf := t.obuf, work := t.work } := by
  obtain ⟨o, w, rfl⟩ := h
  rfl

theorem OnlyOutputAndWork.writeObuf (s : State) (j : Nat) (v : Byte) : OnlyOutputAndWork s (s.writeObuf j v) :=
  ⟨_, s.work, rfl⟩

theorem OnlyOutputAndWork.setWork (s : State) (w : Work) : OnlyOutputAndWork s { s with work := w } := ⟨s.obuf, w, rfl⟩

variable {cellStep : State → State}

/-- With `ERRL` set nothing more is scanned (R133). -/
theorem scan_stopped (n : Nat) (s : State) (h : s.work.errl = true) : scan cellStep n s = s := by
  cases n with
  | zero => rfl
  | succ n => simp [scan, h]

/-- A scan of `m + n` cells is a scan of `m` and then of `n`. -/
theorem scan_add (m n : Nat) (s : State) : scan cellStep (m + n) s = scan cellStep n (scan cellStep m s) := by
  induction m generalizing s with
  | zero => simp [scan]
  | succ m ih =>
    rw [Nat.succ_add, scan, scan]
    split
    · next h => rw [scan_stopped n s h]
    · exact ih _

/-- One more cell, if the scan has not stopped. -/
theorem scan_succ (n : Nat) (s : State) :
    scan cellStep (n + 1) s =
      if (scan cellStep n s).work.errl then scan cellStep n s else cellStep (scan cellStep n s) := by
  rw [scan_add]; rfl

/-- What every cell step keeps, the scan keeps. -/
theorem scan_keeps (P : State → Prop) (hstep : ∀ t, P t → P (cellStep t)) (n : Nat) (s : State) (h : P s) :
    P (scan cellStep n s) := by
  induction n generalizing s with
  | zero => exact h
  | succ n ih =>
    rw [scan]
    split
    · exact h
    · exact ih _ (hstep s h)

/-- Induction over the cells of a scan that does not stop before cell `n`. -/
theorem scan_upto (P : Nat → State → Prop) (n : Nat) (s : State) (h0 : P 0 s)
    (hstep : ∀ k t, k < n → P k t → t.work.errl = false ∧ P (k + 1) (cellStep t)) :
    P n (scan cellStep n s) := by
  induction n with
  | zero => exact h0
  | succ n ih =>
    have hn := hstep n _ (Nat.lt_succ_self n) (ih fun k t hk => hstep k t (Nat.lt_succ_of_lt hk))
    rw [scan_succ, if_neg (by simp [hn.1])]
    exact hn.2

end Sys2Proof.Machine
end

