-- ==== Sys2Proof/Laws/Operands.lean ====
section
/-! SUPPORT. The arithmetic of the datapaths in natural numbers: one lemma for each function of Machine/Operands.lean. -/

namespace Sys2Proof.Machine

/-- The digit generator gives digit `i` as `(v div 85^(4-i)) mod 85` (R114). -/
theorem digits_eq (v : Word) :
    digits v = ⟨BitVec.ofNat 7 (digitOf v.toNat 0), BitVec.ofNat 7 (digitOf v.toNat 1),
      BitVec.ofNat 7 (digitOf v.toNat 2), BitVec.ofNat 7 (digitOf v.toNat 3), BitVec.ofNat 7 (digitOf v.toNat 4)⟩ := by
  have h := v.isLt
  simp only [digits, digitOf, Digits.mk.injEq, Nat.reduceSub, Nat.reducePow]
  refine ⟨?_, ?_, ?_, ?_, ?_⟩ <;> congr 1 <;> omega

/-- Loading the first byte of a group. -/
theorem packByte_first (gv : Word) (b : Byte) : (packByte true gv b).toNat = b.toNat := by
  have := b.isLt
  simp only [packByte, if_true, BitVec.toNat_setWidth]
  omega

/-- Packing one byte below those already packed. -/
theorem packByte_next (gv : Word) (b : Byte) (h : gv.toNat < 2 ^ 24) :
    (packByte false gv b).toNat = gv.toNat * 2 ^ 8 + b.toNat := by
  have hb := b.isLt
  simp only [packByte, Bool.false_eq_true, if_false, BitVec.toNat_or, BitVec.toNat_shiftLeft, BitVec.toNat_setWidth]
  rw [Nat.mod_eq_of_lt (a := gv.toNat <<< 8) (by rw [Nat.shiftLeft_eq]; omega),
    Nat.mod_eq_of_lt (a := b.toNat) (by omega), ← Nat.shiftLeft_add_eq_or_of_lt hb, Nat.shiftLeft_eq]

/-- Loading the first digit of a group. -/
theorem hornerStep_first (acc : Word) (d : Digit) : (hornerStep true acc d).toNat = d.toNat := by
  have := d.isLt
  simp only [hornerStep, if_true, BitVec.toNat_setWidth]
  omega

/-- A further digit: `(ACC*85 + d) mod 2^32` (R134). -/
theorem hornerStep_next (acc : Word) (d : Digit) :
    (hornerStep false acc d).toNat = (acc.toNat * 85 + d.toNat) % 2 ^ 32 := by
  have := d.isLt
  have h85 : (85 : Word).toNat = 85 := rfl
  simp only [hornerStep, Bool.false_eq_true, if_false, BitVec.toNat_add, BitVec.toNat_mul, BitVec.toNat_setWidth, h85]
  omega

/-- Byte `k` of a group value, the first the most significant (R137). -/
theorem groupByte_toNat (v : Word) (k : Nat) :
    (groupByte v k).toNat = v.toNat / 256 ^ (3 - k) % 256 := by
  simp only [groupByte, BitVec.extractLsb'_toNat, Nat.shiftRight_eq_div_pow, Nat.pow_mul, Nat.reducePow]

/-- Bus data fits a cell exactly when it is below 2^21 (R163). -/
theorem fitsCell_iff (w : Word) : fitsCell w = true ↔ w.toNat < 2 ^ 21 := by
  have := w.isLt
  have h0 : (0 : BitVec 11).toNat = 0 := rfl
  simp only [fitsCell, decide_eq_true_eq, ← BitVec.toNat_inj, BitVec.extractLsb'_toNat, Nat.shiftRight_eq_div_pow, h0]
  omega

/-- The cell content of bus data is its low 21 bits (R163). -/
theorem cellOf_eq (w : Word) : cellOf w = w.setWidth 21 := by
  apply BitVec.eq_of_toNat_eq
  simp [cellOf, BitVec.extractLsb'_toNat]

end Sys2Proof.Machine
end

