-- ==== Sys2Proof/Laws/Bus.lean ====
section
/-! SUPPORT. The address map by region (20_memory.md R52), and what commands do before their scans. -/

namespace Sys2Proof.Machine

theorem locate_obuf (a : BusAddr) (h : 0x20000 ≤ a.toNat) : locate a = .obuf (a.toNat - 0x20000) := by
  unfold locate
  repeat rw [if_neg (by omega)]

theorem locate_ibuf (a : BusAddr) (h : 0x10000 ≤ a.toNat) (h' : a.toNat < 0x20000) :
    locate a = .ibuf (a.toNat - 0x10000) := by
  unfold locate
  repeat rw [if_neg (by omega)]
  exact if_pos h'

theorem locate_unmapped (a : BusAddr) (h : 0x0000B ≤ a.toNat) (h' : a.toNat < 0x10000) : locate a = .unmapped := by
  unfold locate
  repeat rw [if_neg (by omega)]
  exact if_pos h'

/-- The eleven registers by their addresses (R22). -/
theorem locate_register :
    locate 0x00000 = .cmd ∧ locate 0x00001 = .status ∧ locate 0x00002 = .off ∧ locate 0x00003 = .len ∧
    locate 0x00004 = .olen ∧ locate 0x00005 = .elen ∧ locate 0x00006 = .emult ∧ locate 0x00007 = .echar ∧
    locate 0x00008 = .epos ∧ locate 0x00009 = .arg ∧ locate 0x0000A = .res :=
  ⟨rfl, rfl, rfl, rfl, rfl, rfl, rfl, rfl, rfl, rfl, rfl⟩

/-- An address is a register's when its number is; stated for each so that arithmetic can use it. -/
theorem addr_eq_iff (a : BusAddr) :
    (a = 0 ↔ a.toNat = 0) ∧ (a = 1 ↔ a.toNat = 1) ∧ (a = 2 ↔ a.toNat = 2) ∧ (a = 3 ↔ a.toNat = 3) ∧
    (a = 4 ↔ a.toNat = 4) ∧ (a = 5 ↔ a.toNat = 5) ∧ (a = 6 ↔ a.toNat = 6) ∧ (a = 7 ↔ a.toNat = 7) ∧
    (a = 8 ↔ a.toNat = 8) ∧ (a = 9 ↔ a.toNat = 9) ∧ (a = 10 ↔ a.toNat = 10) :=
  ⟨BitVec.toNat_inj.symm, BitVec.toNat_inj.symm, BitVec.toNat_inj.symm, BitVec.toNat_inj.symm,
    BitVec.toNat_inj.symm, BitVec.toNat_inj.symm, BitVec.toNat_inj.symm, BitVec.toNat_inj.symm,
    BitVec.toNat_inj.symm, BitVec.toNat_inj.symm, BitVec.toNat_inj.symm⟩

/-- Every address is one of the eleven registers or lies in one of the three regions. -/
theorem addr_cases (a : BusAddr) :
    a = 0x00000 ∨ a = 0x00001 ∨ a = 0x00002 ∨ a = 0x00003 ∨ a = 0x00004 ∨ a = 0x00005 ∨ a = 0x00006 ∨
    a = 0x00007 ∨ a = 0x00008 ∨ a = 0x00009 ∨ a = 0x0000A ∨
    (0x0000B ≤ a.toNat ∧ a.toNat < 0x10000) ∨ (0x10000 ≤ a.toNat ∧ a.toNat < 0x20000) ∨ 0x20000 ≤ a.toNat := by
  obtain ⟨h0, h1, h2, h3, h4, h5, h6, h7, h8, h9, hA⟩ := addr_eq_iff a
  rw [h0, h1, h2, h3, h4, h5, h6, h7, h8, h9, hA]
  omega

end Sys2Proof.Machine
end

