-- ==== Sys2Proof/Laws/Decoder.lean ====
section
/-! SUPPORT. What one character, one group and the whole scan of the decoder do (42_decoder.md). -/

namespace Sys2Proof.Machine

/-- Unpacking a group changes `OBUF` and nothing else. -/
theorem emitBytes_frame (s : State) (g : Nat) (v : Word) : OnlyOutputAndWork s (emitBytes s g v) :=
  (((OnlyOutputAndWork.writeObuf _ _ _).trans (OnlyOutputAndWork.writeObuf _ _ _)).trans
    (OnlyOutputAndWork.writeObuf _ _ _)).trans (OnlyOutputAndWork.writeObuf _ _ _)

/-- The four `OBUF` cells of a group, and every other cell. -/
theorem emitBytes_read (s : State) (g : Nat) (v : Word) (j : Nat) :
    Memory.read (emitBytes s g v).obuf j =
      if j = 4 * g then some (groupByte v 0) else if j = 4 * g + 1 then some (groupByte v 1)
      else if j = 4 * g + 2 then some (groupByte v 2) else if j = 4 * g + 3 then some (groupByte v 3)
      else Memory.read s.obuf j := by
  simp only [emitBytes, State.writeObuf_obuf, Memory.read_write]
  split_ifs <;> first | rfl | omega

/-- A property of `OBUF` that every write below a bound keeps, `emitBytes` keeps. -/
theorem emitBytes_keeps (P : Memory 8 → Prop) (n : Nat) (hw : ∀ m i v, i < n → P m → P (Memory.write m i v))
    (s : State) (g : Nat) (v : Word) (hg : 4 * g + 4 ≤ n) (h : P s.obuf) : P (emitBytes s g v).obuf := by
  simp only [emitBytes, State.writeObuf_obuf]
  exact hw _ _ _ (by omega) (hw _ _ _ (by omega) (hw _ _ _ (by omega) (hw _ _ _ (by omega) h)))

/-- One digit changes `OBUF` and the working registers and nothing else. -/
theorem accumulate_frame (s : State) (d : Digit) : OnlyOutputAndWork s (accumulate s d) := by
  simp only [accumulate]
  split
  · exact (OnlyOutputAndWork.setWork s _).trans (emitBytes_frame _ _ _)
  · exact OnlyOutputAndWork.setWork s _

/-- `t` is `s` but for `OBUF`, the working registers and, when `ERRL` is set, the record of an invalid character. -/
def OnlyDecoded (s t : State) : Prop :=
  (t.work.errl = false ∧ OnlyOutputAndWork s t) ∨
  (t.work.errl = true ∧ ∃ (o : Memory 8) (w : Work) (c : CharCell) (p : Word),
    t = { s with obuf := o, work := w, kind := .invalidCharacter, echar := c, epos := p })

theorem accumulate_errl (s : State) (d : Digit) : (accumulate s d).work.errl = s.work.errl := by
  simp only [accumulate]
  split <;> rfl

/-- A cell of the decoder that runs before `ERRL` is set. -/
theorem decodeCell_frame (s t : State) (hr : t.work.errl = false) (h : OnlyOutputAndWork s t) :
    OnlyDecoded s (decodeCell t) := by
  simp only [decodeCell]
  split
  · refine .inr ⟨rfl, ?_⟩
    obtain ⟨o, w, rfl⟩ := h
    exact ⟨_, _, _, _, rfl⟩
  · next d _ =>
    refine .inl ⟨?_, (h.trans (accumulate_frame t d)).trans (OnlyOutputAndWork.setWork _ _)⟩
    rw [State.advance_work]
    exact (accumulate_errl t d).trans hr

/-- The scan of the decoder, whatever it meets and from every state. -/
theorem decodeScan_frame (n : Nat) (s : State) : OnlyDecoded s (scan decodeCell n s.beginScan) := by
  induction n with
  | zero => exact .inl ⟨rfl, OnlyOutputAndWork.setWork s _⟩
  | succ n ih =>
    rw [scan_succ]
    split
    · exact ih
    · next hr =>
      rcases ih with ⟨h, hf⟩ | ⟨h, _⟩
      · exact decodeCell_frame s _ h hf
      · exact absurd h hr

/-- The exact value of the first `r` digits of decoder group `g` of the view (R134, before the reduction). -/
def State.hornerPart (s : State) (g r : Nat) : Nat :=
  match r with
  | 0 => 0
  | r + 1 => s.hornerPart g r * 85 + s.viewDigit (5 * g + r)

/-- The byte `OBUF` holds at place `k` of decoder group `g` of the view. -/
def State.decByte (s : State) (g k : Nat) : Byte := groupByte (BitVec.ofNat 32 (s.decValue g)) k

/-- Where the decoder stands after `k` cells of the view of `s`, all of them in the alphabet. -/
structure DecoderAt (s : State) (k : Nat) (t : State) : Prop where
  frame : OnlyOutputAndWork s t
  running : t.work.errl = false
  pos : t.work.pos.toNat = k
  gi : t.work.gi.toNat = k % 5
  acc : k % 5 ≠ 0 → t.work.acc.toNat = s.hornerPart (k / 5) (k % 5) % 2 ^ 32
  written : ∀ g i, g < k / 5 → i < 4 → Memory.read t.obuf (4 * g + i) = some (s.decByte g i)
  kept : ∀ j, 4 * (k / 5) ≤ j → Memory.read t.obuf j = Memory.read s.obuf j
  wf : Memory.wf s.obuf = true → Memory.wf t.obuf = true
  below : ∀ n, 4 * (k / 5) ≤ n → Memory.below s.obuf n = true → Memory.below t.obuf n = true

/-- The decoder reads the view of the state it started in. -/
theorem DecoderAt.viewChar {s t : State} {k : Nat} (h : DecoderAt s k t) (i : Nat) :
    t.viewChar i = s.viewChar i := by
  obtain ⟨o, w, rfl⟩ := h.frame
  rfl

theorem DecoderAt.start (s : State) : DecoderAt s 0 s.beginScan where
  frame := ⟨_, _, rfl⟩
  running := rfl
  pos := rfl
  gi := rfl
  acc h := absurd rfl h
  written g i hg := absurd hg (by omega)
  kept _ _ := rfl
  wf := id
  below _ _ := id

/-- The fields a valid character changes, by its place in the group. -/
theorem accumulate_work (t : State) (d : Digit) :
    (accumulate t d).work.pos = t.work.pos ∧ (accumulate t d).work.gi = t.work.gi ∧
    (accumulate t d).work.acc = hornerStep (t.work.gi = 0) t.work.acc d ∧
    (t.work.gi ≠ 4 → (accumulate t d).obuf = t.obuf) ∧
    (t.work.gi = 4 → (accumulate t d).obuf =
      (emitBytes t (t.work.pos.toNat / 5) (hornerStep false t.work.acc d)).obuf) := by
  by_cases h : t.work.gi = 4
  · simp only [accumulate, h, if_true]
    exact ⟨rfl, rfl, rfl, fun h' => absurd rfl h', fun _ => rfl⟩
  · simp only [accumulate, h, if_false]
    exact ⟨trivial, trivial, trivial, fun _ => trivial, fun h' => absurd h' id⟩

/-- One more digit in the accumulator. -/
theorem hornerStep_part (s : State) (g r : Nat) (acc : Word) (d : Digit) (hd : s.viewDigit (5 * g + r) = d.toNat)
    (h : r ≠ 0 → acc.toNat = s.hornerPart g r % 2 ^ 32) :
    (hornerStep (r = 0) acc d).toNat = s.hornerPart g (r + 1) % 2 ^ 32 := by
  have hlt := d.isLt
  rw [State.hornerPart, hd]
  by_cases hr : r = 0
  · subst hr
    simp only [decide_true, hornerStep_first, State.hornerPart]
    omega
  · simp only [hr, decide_false, hornerStep_next, h hr]
    omega

/-- Five digits give the exact value of the group (R135). -/
theorem hornerPart_five (s : State) (g : Nat) : s.hornerPart g 5 = s.decValue g := by
  simp only [State.hornerPart, State.decValue, Nat.add_zero]
  omega

/-- One more character that is in the alphabet (R131 to R137). -/
theorem DecoderAt.next {s t : State} {k : Nat} (hk : k + 1 < 2 ^ 17) (hc : (valueOf (s.viewChar k)).isSome = true)
    (h : DecoderAt s k t) : DecoderAt s (k + 1) (decodeCell t) := by
  obtain ⟨d, hd⟩ := Option.isSome_iff_exists.1 hc
  have hdig : s.viewDigit k = d.toNat := by simp [State.viewDigit, hd]
  have hcell : decodeCell t = (accumulate t d).advance 5 := by
    simp only [decodeCell, h.pos, h.viewChar, hd]
  obtain ⟨wpos, wgi, wacc, wmid, wend⟩ := accumulate_work t d
  have hgi := h.gi
  have hgi4 : t.work.gi = 4 ↔ k % 5 = 4 := by
    rw [← BitVec.toNat_inj, hgi]; rfl
  have hgi0 : t.work.gi = 0 ↔ k % 5 = 0 := by
    rw [← BitVec.toNat_inj, hgi]; rfl
  have hkg : 5 * (k / 5) + k % 5 = k := by omega
  have hacc : (hornerStep (t.work.gi = 0) t.work.acc d).toNat = s.hornerPart (k / 5) (k % 5 + 1) % 2 ^ 32 := by
    simp only [hgi0]
    exact hornerStep_part s (k / 5) (k % 5) t.work.acc d (by rw [hkg, hdig]) h.acc
  have hobuf' : (decodeCell t).obuf = (accumulate t d).obuf := by rw [hcell, State.advance_obuf]
  have hrun : (decodeCell t).work.errl = false := by
    rw [hcell, State.advance_work]; exact (accumulate_errl t d).trans h.running
  have hpos : (decodeCell t).work.pos.toNat = k + 1 := by
    rw [hcell, State.advance_work]
    show ((accumulate t d).work.pos + 1).toNat = k + 1
    rw [wpos, BitVec.toNat_add, h.pos]
    exact Nat.mod_eq_of_lt hk
  have hgi' : (decodeCell t).work.gi.toNat = (k + 1) % 5 := by
    rw [hcell, State.advance_work]
    show (BitVec.ofNat 3 (((accumulate t d).work.gi.toNat + 1) % 5)).toNat = (k + 1) % 5
    rw [wgi, BitVec.toNat_ofNat, hgi]; omega
  have hframe : OnlyOutputAndWork s (decodeCell t) := by
    rw [hcell]
    exact (h.frame.trans (accumulate_frame t d)).trans (OnlyOutputAndWork.setWork _ _)
  have hacc' : (decodeCell t).work.acc = hornerStep (t.work.gi = 0) t.work.acc d := by
    rw [hcell, State.advance_work]; exact wacc
  by_cases hlast : k % 5 = 4
  · have hobuf := hobuf'.trans (wend (hgi4.2 hlast))
    have hdiv : (k + 1) / 5 = k / 5 + 1 := by omega
    have hval : hornerStep false t.work.acc d = BitVec.ofNat 32 (s.decValue (k / 5)) := by
      apply BitVec.eq_of_toNat_eq
      rw [BitVec.toNat_ofNat, ← hornerPart_five]
      rw [hlast, decide_eq_false (by rw [hgi0]; omega)] at hacc
      exact hacc
    rw [h.pos, hval] at hobuf
    refine ⟨hframe, hrun, hpos, hgi', fun hne => absurd hne (by omega),
      fun g i hg hi => ?_, fun j hj => ?_, fun hw => ?_, fun n hn hb => ?_⟩
    · rw [hobuf, emitBytes_read]
      by_cases hgk : g < k / 5
      · rw [if_neg (by omega), if_neg (by omega), if_neg (by omega), if_neg (by omega)]
        exact h.written g i hgk hi
      · have hgeq : g = k / 5 := by omega
        subst hgeq
        match i, hi with
        | 0, _ => rw [if_pos (by omega)]; rfl
        | 1, _ => rw [if_neg (by omega), if_pos rfl]; rfl
        | 2, _ => rw [if_neg (by omega), if_neg (by omega), if_pos rfl]; rfl
        | 3, _ => rw [if_neg (by omega), if_neg (by omega), if_neg (by omega), if_pos rfl]; rfl
    · rw [hobuf, emitBytes_read, if_neg (by omega), if_neg (by omega), if_neg (by omega), if_neg (by omega)]
      exact h.kept j (by omega)
    · rw [hobuf]
      exact emitBytes_keeps (fun m => Memory.wf m = true) _ (fun m i v _ => Memory.wf_write m i v) _ _ _
        (Nat.le_refl _) (h.wf hw)
    · rw [hobuf]
      exact emitBytes_keeps (fun m => Memory.below m n = true) n (fun m i v hi => Memory.below_write m i n v hi) _ _ _
        (by omega) (h.below n (by omega) hb)
  · have hobuf := hobuf'.trans (wmid fun h' => hlast (hgi4.1 h'))
    have hdiv : (k + 1) / 5 = k / 5 := by omega
    have hmod : (k + 1) % 5 = k % 5 + 1 := by omega
    refine ⟨hframe, hrun, hpos, hgi', fun _ => ?_, fun g i hg hi => ?_, fun j hj => ?_, fun hw => ?_,
      fun n hn hb => ?_⟩
    · rw [hacc', hacc, hdiv, hmod]
    · rw [hobuf]; exact h.written g i (by omega) hi
    · rw [hobuf]; exact h.kept j (by omega)
    · rw [hobuf]; exact h.wf hw
    · rw [hobuf]; exact h.below n (by omega) hb

/-- What the scan of the decoder does on characters of the alphabet (R141): after `n` cells it stands at cell `n`, every
complete group unpacked. -/
theorem decodeScan_at (s : State) (n : Nat) (hn : n < 2 ^ 17)
    (hc : ∀ k < n, (valueOf (s.viewChar k)).isSome = true) : DecoderAt s n (scan decodeCell n s.beginScan) :=
  scan_upto (DecoderAt s) n s.beginScan (DecoderAt.start s) fun k _ hk h =>
    ⟨h.running, h.next (by omega) (hc k hk)⟩

/-- The first invalid character stops the scan and is the one latched (R133). -/
theorem decodeScan_invalid (s : State) (n p : Nat) (hp : p < n) (hn : n < 2 ^ 17)
    (hc : ∀ k < p, (valueOf (s.viewChar k)).isSome = true) (hbad : valueOf (s.viewChar p) = none) :
    DecoderAt s p (scan decodeCell p s.beginScan) ∧
    scan decodeCell n s.beginScan = latchInvalid (scan decodeCell p s.beginScan) (s.viewChar p) := by
  have h := decodeScan_at s p (by omega) hc
  refine ⟨h, ?_⟩
  obtain ⟨m, rfl⟩ : ∃ m, n = p + (m + 1) := ⟨n - p - 1, by omega⟩
  rw [scan_add, scan, if_neg (by simp [h.running])]
  have hcell : decodeCell (scan decodeCell p s.beginScan) =
      latchInvalid (scan decodeCell p s.beginScan) (s.viewChar p) := by
    simp only [decodeCell, h.pos, h.viewChar, hbad]
  rw [hcell]
  exact scan_stopped _ _ rfl

end Sys2Proof.Machine
end

