-- ==== Sys2Proof/Laws/Encoder.lean ====
section
/-! SUPPORT. What one cell, one group and the whole scan of the encoder do (41_encoder.md). -/

namespace Sys2Proof.Machine

/-- Emitting a group changes `OBUF` and nothing else. -/
theorem emitChars_frame (s : State) (g : Nat) (d : Digits) : OnlyOutputAndWork s (emitChars s g d) :=
  ((((OnlyOutputAndWork.writeObuf _ _ _).trans (OnlyOutputAndWork.writeObuf _ _ _)).trans
    (OnlyOutputAndWork.writeObuf _ _ _)).trans (OnlyOutputAndWork.writeObuf _ _ _)).trans
    (OnlyOutputAndWork.writeObuf _ _ _)

/-- A cell of the encoder changes `OBUF` and the working registers and nothing else. -/
theorem encodeCell_frame (s : State) : OnlyOutputAndWork s (encodeCell s) := by
  have hg : ∀ p : State, OnlyOutputAndWork p (encodeGroup p) := fun p =>
    (emitChars_frame p _ _).trans (OnlyOutputAndWork.setWork _ _)
  have ha : ∀ p : State, OnlyOutputAndWork p (p.advance 4) := fun p => OnlyOutputAndWork.setWork _ _
  simp only [encodeCell]
  split
  · exact ((OnlyOutputAndWork.setWork s _).trans (hg _)).trans (ha _)
  · exact (OnlyOutputAndWork.setWork s _).trans (ha _)

/-- The scan of the encoder changes `OBUF` and the working registers and nothing else. -/
theorem encodeScan_frame (n : Nat) (s : State) : OnlyOutputAndWork s (scan encodeCell n s) :=
  scan_keeps (OnlyOutputAndWork s) (fun t h => h.trans (encodeCell_frame t)) n s ⟨_, _, rfl⟩

/-- The five `OBUF` cells of a group, and every other cell. -/
theorem emitChars_read (s : State) (g : Nat) (d : Digits) (j : Nat) :
    Memory.read (emitChars s g d).obuf j =
      if j = 5 * g then some (charByte d.d0) else if j = 5 * g + 1 then some (charByte d.d1)
      else if j = 5 * g + 2 then some (charByte d.d2) else if j = 5 * g + 3 then some (charByte d.d3)
      else if j = 5 * g + 4 then some (charByte d.d4) else Memory.read s.obuf j := by
  simp only [emitChars, State.writeObuf_obuf, Memory.read_write]
  split_ifs <;> first | rfl | omega

/-- A property of `OBUF` that every write below a bound keeps, `emitChars` keeps. -/
theorem emitChars_keeps (P : Memory 8 → Prop) (n : Nat) (hw : ∀ m i v, i < n → P m → P (Memory.write m i v))
    (s : State) (g : Nat) (d : Digits) (hg : 5 * g + 5 ≤ n) (h : P s.obuf) : P (emitChars s g d).obuf := by
  simp only [emitChars, State.writeObuf_obuf]
  exact hw _ _ _ (by omega) (hw _ _ _ (by omega) (hw _ _ _ (by omega) (hw _ _ _ (by omega)
    (hw _ _ _ (by omega) h))))

/-- The part of a group value packed from its first `r` bytes (R113). -/
def State.packedPart (s : State) (g r : Nat) : Nat :=
  match r with
  | 0 => 0
  | 1 => (s.viewByte (4 * g)).toNat
  | 2 => (s.viewByte (4 * g)).toNat * 2 ^ 8 + (s.viewByte (4 * g + 1)).toNat
  | _ => (s.viewByte (4 * g)).toNat * 2 ^ 16 + (s.viewByte (4 * g + 1)).toNat * 2 ^ 8 +
      (s.viewByte (4 * g + 2)).toNat

/-- The character `OBUF` holds for digit `i` of encoder group `g` of the view. -/
def State.encChar (s : State) (g i : Nat) : Byte := charByte (BitVec.ofNat 7 (digitOf (s.encValue g) i))

/-- Where the encoder stands after `k` cells of the view of `s`. -/
structure EncoderAt (s : State) (k : Nat) (t : State) : Prop where
  frame : OnlyOutputAndWork s t
  running : t.work.errl = false
  pos : t.work.pos.toNat = k
  gi : t.work.gi.toNat = k % 4
  packed : k % 4 ≠ 0 → t.work.gv.toNat = s.packedPart (k / 4) (k % 4)
  written : ∀ g i, g < k / 4 → i < 5 → Memory.read t.obuf (5 * g + i) = some (s.encChar g i)
  kept : ∀ j, 5 * (k / 4) ≤ j → Memory.read t.obuf j = Memory.read s.obuf j
  wf : Memory.wf s.obuf = true → Memory.wf t.obuf = true
  below : ∀ n, 5 * (k / 4) ≤ n → Memory.below s.obuf n = true → Memory.below t.obuf n = true

/-- The encoder packs the view of the state it started in. -/
theorem EncoderAt.viewByte {s t : State} {k : Nat} (h : EncoderAt s k t) (i : Nat) :
    t.viewByte i = s.viewByte i := by
  obtain ⟨o, w, rfl⟩ := h.frame
  rfl

theorem EncoderAt.start (s : State) : EncoderAt s 0 s.beginScan where
  frame := ⟨_, _, rfl⟩
  running := rfl
  pos := rfl
  gi := rfl
  packed h := absurd rfl h
  written g i hg := absurd hg (by omega)
  kept _ _ := rfl
  wf := id
  below _ _ := id

/-- The fields of `encodeCell` that matter, by the place of the cell in its group. -/
theorem encodeCell_work (t : State) :
    (encodeCell t).work.errl = t.work.errl ∧ (encodeCell t).work.pos = t.work.pos + 1 ∧
    (encodeCell t).work.gi = BitVec.ofNat 3 ((t.work.gi.toNat + 1) % 4) ∧
    (t.work.gi ≠ 3 → (encodeCell t).obuf = t.obuf ∧
      (encodeCell t).work.gv = packByte (t.work.gi = 0) t.work.gv (t.viewByte t.work.pos.toNat)) ∧
    (t.work.gi = 3 → (encodeCell t).obuf =
      (emitChars t (t.work.pos.toNat / 4)
        (digits (packByte false t.work.gv (t.viewByte t.work.pos.toNat)))).obuf) := by
  by_cases h : t.work.gi = 3
  · simp only [encodeCell, h, if_true]
    refine ⟨rfl, rfl, rfl, fun h' => absurd rfl h', fun _ => rfl⟩
  · simp only [encodeCell, h, if_false]
    exact ⟨rfl, rfl, rfl, fun _ => ⟨rfl, rfl⟩, fun h' => absurd h' id⟩

/-- Packing the next byte of a group. -/
theorem packByte_packedPart (s : State) (g r : Nat) (gv : Word) (hr : r < 3)
    (h : r ≠ 0 → gv.toNat = s.packedPart g r) :
    (packByte (r = 0) gv (s.viewByte (4 * g + r))).toNat = s.packedPart g (r + 1) := by
  have hb : ∀ i, (s.viewByte i).toNat < 2 ^ 8 := fun i => (s.viewByte i).isLt
  have h0 := hb (4 * g)
  have h1 := hb (4 * g + 1)
  match r, hr with
  | 0, _ => simp [packByte_first, State.packedPart]
  | 1, _ =>
    have h' := h (by decide)
    simp only [State.packedPart] at h' ⊢
    simp only [Nat.one_ne_zero, decide_false]
    rw [packByte_next _ _ (by omega), h']
  | 2, _ =>
    have h' := h (by decide)
    simp only [State.packedPart] at h' ⊢
    simp only [OfNat.ofNat_ne_zero, decide_false]
    rw [packByte_next _ _ (by omega), h']
    omega

/-- The fourth byte completes the group value. -/
theorem packByte_encValue (s : State) (g : Nat) (gv : Word) (h : gv.toNat = s.packedPart g 3) :
    (packByte false gv (s.viewByte (4 * g + 3))).toNat = s.encValue g := by
  have hb : ∀ i, (s.viewByte i).toNat < 2 ^ 8 := fun i => (s.viewByte i).isLt
  have h0 := hb (4 * g)
  have h1 := hb (4 * g + 1)
  have h2 := hb (4 * g + 2)
  simp only [State.packedPart] at h
  rw [packByte_next _ _ (by omega), h, State.encValue]
  omega

/-- One more cell (R111 to R117). -/
theorem EncoderAt.next {s t : State} {k : Nat} (hk : k + 1 < 2 ^ 17) (h : EncoderAt s k t) :
    EncoderAt s (k + 1) (encodeCell t) := by
  obtain ⟨werrl, wpos, wgi, wmid, wend⟩ := encodeCell_work t
  have hgi := h.gi
  have hgi3 : t.work.gi = 3 ↔ k % 4 = 3 := by
    rw [← BitVec.toNat_inj, hgi]; rfl
  have hgi0 : t.work.gi = 0 ↔ k % 4 = 0 := by
    rw [← BitVec.toNat_inj, hgi]; rfl
  rw [h.pos, h.viewByte] at wmid wend
  have hpos : (encodeCell t).work.pos.toNat = k + 1 := by
    rw [wpos, BitVec.toNat_add, h.pos]
    exact Nat.mod_eq_of_lt hk
  have hgi' : (encodeCell t).work.gi.toNat = (k + 1) % 4 := by
    rw [wgi, BitVec.toNat_ofNat, hgi]; omega
  by_cases hlast : k % 4 = 3
  · have hobuf := wend (hgi3.2 hlast)
    have hkg : 4 * (k / 4) + 3 = k := by omega
    have hval : (packByte false t.work.gv (s.viewByte k)).toNat = s.encValue (k / 4) := by
      have := packByte_encValue s (k / 4) t.work.gv (by rw [h.packed (by omega), hlast])
      rwa [hkg] at this
    have hdiv : (k + 1) / 4 = k / 4 + 1 := by omega
    refine ⟨h.frame.trans (encodeCell_frame t), werrl.trans h.running, hpos, hgi', fun hne => absurd hne (by omega),
      fun g i hg hi => ?_, fun j hj => ?_, fun hw => ?_, fun n hn hb => ?_⟩
    · rw [hobuf, emitChars_read]
      by_cases hgk : g < k / 4
      · rw [if_neg (by omega), if_neg (by omega), if_neg (by omega), if_neg (by omega), if_neg (by omega)]
        exact h.written g i hgk hi
      · have hgeq : g = k / 4 := by omega
        subst hgeq
        simp only [digits_eq, hval, State.encChar]
        match i, hi with
        | 0, _ => rw [if_pos (by omega)]
        | 1, _ => rw [if_neg (by omega), if_pos rfl]
        | 2, _ => rw [if_neg (by omega), if_neg (by omega), if_pos rfl]
        | 3, _ => rw [if_neg (by omega), if_neg (by omega), if_neg (by omega), if_pos rfl]
        | 4, _ => rw [if_neg (by omega), if_neg (by omega), if_neg (by omega), if_neg (by omega), if_pos rfl]
    · rw [hobuf, emitChars_read, if_neg (by omega), if_neg (by omega), if_neg (by omega), if_neg (by omega),
        if_neg (by omega)]
      exact h.kept j (by omega)
    · rw [hobuf]
      exact emitChars_keeps (fun m => Memory.wf m = true) _ (fun m i v _ => Memory.wf_write m i v) _ _ _
        (Nat.le_refl _) (h.wf hw)
    · rw [hobuf]
      exact emitChars_keeps (fun m => Memory.below m n = true) n (fun m i v hi => Memory.below_write m i n v hi) _ _ _
        (by omega) (h.below n (by omega) hb)
  · obtain ⟨hobuf, hgv⟩ := wmid fun h' => hlast (hgi3.1 h')
    have hdiv : (k + 1) / 4 = k / 4 := by omega
    have hmod : (k + 1) % 4 = k % 4 + 1 := by omega
    have hkg : 4 * (k / 4) + k % 4 = k := by omega
    refine ⟨h.frame.trans (encodeCell_frame t), werrl.trans h.running, hpos, hgi', fun _ => ?_,
      fun g i hg hi => ?_, fun j hj => ?_, fun hw => ?_, fun n hn hb => ?_⟩
    · have := packByte_packedPart s (k / 4) (k % 4) t.work.gv (by omega) h.packed
      rw [hkg] at this
      rw [hgv, hdiv, hmod, ← this]
      simp only [hgi0]
    · rw [hobuf]; exact h.written g i (by omega) hi
    · rw [hobuf]; exact h.kept j (by omega)
    · rw [hobuf]; exact h.wf hw
    · rw [hobuf]; exact h.below n (by omega) hb

/-- What the scan of the encoder does (R118): after `n` cells of the view it stands at cell `n`, every complete group
emitted. -/
theorem encodeScan_at (s : State) (n : Nat) (hn : n < 2 ^ 17) :
    EncoderAt s n (scan encodeCell n s.beginScan) :=
  scan_upto (EncoderAt s) n s.beginScan (EncoderAt.start s) fun _ _ hk h => ⟨h.running, h.next (by omega)⟩

end Sys2Proof.Machine
end

