-- ==== Sys2Proof/Laws/Commands.lean ====
section
/-! SUPPORT. The commands by their causes in the order of 60_exceptions.md R187: one equation per outcome. -/

namespace Sys2Proof.Machine

theorem State.viewFits_iff (s : State) : s.viewFits = true ↔ s.off.toNat + s.len.toNat ≤ s.config.cap := by
  simp only [State.viewFits, decide_eq_true_eq]

/-- The view of a state after the prologue is its view before. -/
theorem State.prologue_viewChar (s : State) (k : Nat) : s.prologue.viewChar k = s.viewChar k := rfl

/-- A view that fits in a legal buffer is shorter than the sequencer's counter reaches (R38). -/
theorem len_lt_of_fits (s : State) (hc : s.config.Legal) (h : s.off.toNat + s.len.toNat ≤ s.config.cap) :
    s.len.toNat < 2 ^ 17 := by
  have := hc.2.2
  omega

theorem encCommand_refused (s : State) (h : s.config.cap < s.off.toNat + s.len.toNat) :
    encCommand s = s.prologue.raise .refused := by
  have hf : s.prologue.viewFits = false := by
    rw [← Bool.not_eq_true, State.viewFits_iff]; exact Nat.not_le.2 h
  simp only [encCommand, hf, Bool.not_false, if_true]

theorem encCommand_length (s : State) (h : s.off.toNat + s.len.toNat ≤ s.config.cap) (h4 : s.len.toNat % 4 ≠ 0) :
    encCommand s = s.prologue.raise (.invalidLength 4) := by
  have hf : s.prologue.viewFits = true := (State.viewFits_iff _).2 h
  simp only [encCommand, hf, Bool.not_true, Bool.false_eq_true, if_false, State.prologue_len]
  exact if_pos h4

theorem encCommand_scan (s : State) (h : s.off.toNat + s.len.toNat ≤ s.config.cap) (h4 : s.len.toNat % 4 = 0) :
    encCommand s = (scan encodeCell s.len.toNat s.prologue.beginScan).finish
      (BitVec.ofNat 32 (s.len.toNat / 4 * 5)) := by
  have hf : s.prologue.viewFits = true := (State.viewFits_iff _).2 h
  simp only [encCommand, hf, Bool.not_true, Bool.false_eq_true, if_false, State.prologue_len]
  exact if_neg (not_not.2 h4)

theorem decCommand_refused (s : State) (h : s.config.cap < s.off.toNat + s.len.toNat) :
    decCommand s = s.prologue.raise .refused := by
  have hf : s.prologue.viewFits = false := by
    rw [← Bool.not_eq_true, State.viewFits_iff]; exact Nat.not_le.2 h
  simp only [decCommand, hf, Bool.not_false, if_true]

theorem decCommand_length (s : State) (h : s.off.toNat + s.len.toNat ≤ s.config.cap) (h5 : s.len.toNat % 5 ≠ 0) :
    decCommand s = s.prologue.raise (.invalidLength 5) := by
  have hf : s.prologue.viewFits = true := (State.viewFits_iff _).2 h
  simp only [decCommand, hf, Bool.not_true, Bool.false_eq_true, if_false, State.prologue_len]
  exact if_pos h5

/-- What `DEC` makes of the state its scan ends in (R141). -/
def decodeEnd (len : Nat) (t : State) : State :=
  if t.work.errl then t else t.finish (BitVec.ofNat 32 (len / 5 * 4))

theorem decCommand_scan (s : State) (h : s.off.toNat + s.len.toNat ≤ s.config.cap) (h5 : s.len.toNat % 5 = 0) :
    decCommand s = decodeEnd s.len.toNat (scan decodeCell s.len.toNat s.prologue.beginScan) := by
  have hf : s.prologue.viewFits = true := (State.viewFits_iff _).2 h
  simp only [decCommand, hf, Bool.not_true, Bool.false_eq_true, if_false, State.prologue_len]
  exact if_neg (not_not.2 h5)

/-- `DEC` on a view in the alphabet. -/
theorem decCommand_ok (s : State) (hc : s.config.Legal) (h : s.off.toNat + s.len.toNat ≤ s.config.cap)
    (h5 : s.len.toNat % 5 = 0) (ha : s.ViewInAlphabet) :
    ∃ t, DecoderAt s.prologue s.len.toNat t ∧
      decCommand s = t.finish (BitVec.ofNat 32 (s.len.toNat / 5 * 4)) := by
  have hat := decodeScan_at s.prologue s.len.toNat (len_lt_of_fits s hc h) ha
  refine ⟨_, hat, ?_⟩
  rw [decCommand_scan s h h5, decodeEnd, if_neg (by simp [hat.running])]

/-- `DEC` on a view whose first character outside the alphabet is character `p`. -/
theorem decCommand_invalid (s : State) (p : Nat) (hc : s.config.Legal)
    (h : s.off.toNat + s.len.toNat ≤ s.config.cap) (h5 : s.len.toNat % 5 = 0) (hp : p < s.len.toNat)
    (ha : ∀ k < p, (valueOf (s.viewChar k)).isSome = true) (hbad : valueOf (s.viewChar p) = none) :
    ∃ t, DecoderAt s.prologue p t ∧ decCommand s = latchInvalid t (s.viewChar p) := by
  obtain ⟨hat, heq⟩ := decodeScan_invalid s.prologue s.len.toNat p hp (len_lt_of_fits s hc h) ha hbad
  refine ⟨_, hat, ?_⟩
  rw [decCommand_scan s h h5, heq]
  exact if_pos rfl

/-- A view is in the alphabet, or some character is the first that is not. -/
theorem first_invalid (s : State) :
    s.ViewInAlphabet ∨ ∃ p, p < s.len.toNat ∧ valueOf (s.viewChar p) = none ∧
      ∀ k < p, (valueOf (s.viewChar k)).isSome = true := by
  by_cases h : ∃ p, p < s.len.toNat ∧ valueOf (s.viewChar p) = none
  · classical
    refine .inr ⟨Nat.find h, (Nat.find_spec h).1, (Nat.find_spec h).2, fun k hk => ?_⟩
    have hmin := Nat.find_min h hk
    have hlt : k < s.len.toNat := Nat.lt_trans hk (Nat.find_spec h).1
    rw [Option.isSome_iff_ne_none]
    exact fun hn => hmin ⟨hlt, hn⟩
  · refine .inl fun k hk => ?_
    rw [Option.isSome_iff_ne_none]
    exact fun hn => h ⟨k, hk, hn⟩

/-- The three outcomes of `ENC`, each with its condition (R187). -/
theorem encCommand_cases (s : State) (hc : s.config.Legal) :
    (s.config.cap < s.off.toNat + s.len.toNat ∧ encCommand s = s.prologue.raise .refused) ∨
    (s.off.toNat + s.len.toNat ≤ s.config.cap ∧ s.len.toNat % 4 ≠ 0 ∧
      encCommand s = s.prologue.raise (.invalidLength 4)) ∨
    (s.off.toNat + s.len.toNat ≤ s.config.cap ∧ s.len.toNat % 4 = 0 ∧
      ∃ t, EncoderAt s.prologue s.len.toNat t ∧
        encCommand s = t.finish (BitVec.ofNat 32 (s.len.toNat / 4 * 5))) := by
  by_cases h : s.off.toNat + s.len.toNat ≤ s.config.cap
  · by_cases h4 : s.len.toNat % 4 = 0
    · exact .inr (.inr ⟨h, h4, _, encodeScan_at s.prologue s.len.toNat (len_lt_of_fits s hc h), encCommand_scan s h h4⟩)
    · exact .inr (.inl ⟨h, h4, encCommand_length s h h4⟩)
  · exact .inl ⟨Nat.lt_of_not_le h, encCommand_refused s (Nat.lt_of_not_le h)⟩

/-- The four outcomes of `DEC`, each with its condition (R187). -/
theorem decCommand_cases (s : State) (hc : s.config.Legal) :
    (s.config.cap < s.off.toNat + s.len.toNat ∧ decCommand s = s.prologue.raise .refused) ∨
    (s.off.toNat + s.len.toNat ≤ s.config.cap ∧ s.len.toNat % 5 ≠ 0 ∧
      decCommand s = s.prologue.raise (.invalidLength 5)) ∨
    (s.off.toNat + s.len.toNat ≤ s.config.cap ∧ s.len.toNat % 5 = 0 ∧ s.ViewInAlphabet ∧
      ∃ t, DecoderAt s.prologue s.len.toNat t ∧
        decCommand s = t.finish (BitVec.ofNat 32 (s.len.toNat / 5 * 4))) ∨
    (s.off.toNat + s.len.toNat ≤ s.config.cap ∧ s.len.toNat % 5 = 0 ∧
      ∃ p, p < s.len.toNat ∧ valueOf (s.viewChar p) = none ∧ (∀ k < p, (valueOf (s.viewChar k)).isSome = true) ∧
        ∃ t, DecoderAt s.prologue p t ∧ decCommand s = latchInvalid t (s.viewChar p)) := by
  by_cases h : s.off.toNat + s.len.toNat ≤ s.config.cap
  · by_cases h5 : s.len.toNat % 5 = 0
    · rcases first_invalid s with ha | ⟨p, hp, hb, hm⟩
      · exact .inr (.inr (.inl ⟨h, h5, ha, decCommand_ok s hc h h5 ha⟩))
      · exact .inr (.inr (.inr ⟨h, h5, p, hp, hb, hm, decCommand_invalid s p hc h h5 hp hm hb⟩))
    · exact .inr (.inl ⟨h, h5, decCommand_length s h h5⟩)
  · exact .inl ⟨Nat.lt_of_not_le h, decCommand_refused s (Nat.lt_of_not_le h)⟩

end Sys2Proof.Machine
end

