-- ==== Sys2Proof/Laws/PerInstr.lean ====
section
/-! SUPPORT. The family WriteBit, one lemma per instruction: bit [50] of the encoded word tells a read from a write
(30_encoding.md R71), and a command is a write to address 0 (R70). -/

namespace Sys2Proof.Laws.WriteBit

/-- `we` is 0 exactly in `RD`; the four commands have address 0 and their `CMD` word as data. -/
def Statement (i : Instr) : Prop :=
  (busWe (encode i) = false ↔ ∃ a, i = .rd a) ∧
  (∀ w, cmdWord i = some w → busAddr (encode i) = 0 ∧ busData (encode i) = w)

theorem rd (addr : BusAddr) : Statement (.rd addr) :=
  ⟨⟨fun _ => ⟨addr, rfl⟩, fun _ => busWe_busWord _ _ _⟩, fun _ h => nomatch h⟩

theorem wr (addr : BusAddr) (wdata : Word) : Statement (.wr addr wdata) :=
  ⟨⟨fun h => (by rw [encode, busWe_busWord] at h; cases h), fun ⟨_, h⟩ => nomatch h⟩, fun _ h => nomatch h⟩

theorem enc : Statement .enc :=
  ⟨⟨fun h => (by rw [encode, busWe_busWord] at h; cases h), fun ⟨_, h⟩ => nomatch h⟩,
    fun _ h => (by cases h; exact ⟨busAddr_busWord _ _ _, busData_busWord _ _ _⟩)⟩

theorem dec : Statement .dec :=
  ⟨⟨fun h => (by rw [encode, busWe_busWord] at h; cases h), fun ⟨_, h⟩ => nomatch h⟩,
    fun _ h => (by cases h; exact ⟨busAddr_busWord _ _ _, busData_busWord _ _ _⟩)⟩

theorem chrof : Statement .chrof :=
  ⟨⟨fun h => (by rw [encode, busWe_busWord] at h; cases h), fun ⟨_, h⟩ => nomatch h⟩,
    fun _ h => (by cases h; exact ⟨busAddr_busWord _ _ _, busData_busWord _ _ _⟩)⟩

theorem valof : Statement .valof :=
  ⟨⟨fun h => (by rw [encode, busWe_busWord] at h; cases h), fun ⟨_, h⟩ => nomatch h⟩,
    fun _ h => (by cases h; exact ⟨busAddr_busWord _ _ _, busData_busWord _ _ _⟩)⟩

end Sys2Proof.Laws.WriteBit
end

