-- ==== Sys2Proof/Laws/Step.lean ====
section
/-! SUPPORT. Everything a command, a write and a step can do, said once: later proofs take cases on these. -/

namespace Sys2Proof.Machine

theorem next_inj {s t : State} : (Host.Outcome.next s : Host.Outcome State Fault Refusal) = .next t ↔ s = t :=
  ⟨fun h => by cases h; rfl, fun h => by rw [h]⟩

/-- Giving a response keeps the inputs. -/
theorem State.SameInputs.respond {s t : State} (h : s.SameInputs t) (r : Response) : s.SameInputs (t.respond r) :=
  ⟨h.config, h.off, h.len, h.arg, h.ibuf, h.ibufEpoch, h.cells, h.input⟩

/-! ### Commands -/

/-- What `ENC` keeps, whatever its outcome. -/
theorem encCommand_keeps (s : State) : s.SameInputs (encCommand s) ∧ (encCommand s).output = s.output := by
  by_cases h : s.off.toNat + s.len.toNat ≤ s.config.cap
  · by_cases h4 : s.len.toNat % 4 = 0
    · rw [encCommand_scan s h h4]
      obtain ⟨o, w, e⟩ := encodeScan_frame s.len.toNat s.prologue.beginScan
      rw [e]
      exact ⟨.mk' rfl rfl rfl rfl rfl rfl rfl, rfl⟩
    · rw [encCommand_length s h h4]
      exact ⟨.mk' rfl rfl rfl rfl rfl rfl rfl, rfl⟩
  · rw [encCommand_refused s (Nat.lt_of_not_le h)]
    exact ⟨.mk' rfl rfl rfl rfl rfl rfl rfl, rfl⟩

/-- What `DEC` keeps, whatever its outcome. -/
theorem decCommand_keeps (s : State) : s.SameInputs (decCommand s) ∧ (decCommand s).output = s.output := by
  by_cases h : s.off.toNat + s.len.toNat ≤ s.config.cap
  · by_cases h5 : s.len.toNat % 5 = 0
    · rw [decCommand_scan s h h5]
      rcases decodeScan_frame s.len.toNat s.prologue with ⟨he, o, w, e⟩ | ⟨he, o, w, c, p, e⟩
      · rw [decodeEnd, he, e]
        exact ⟨.mk' rfl rfl rfl rfl rfl rfl rfl, rfl⟩
      · rw [decodeEnd, he, e]
        exact ⟨.mk' rfl rfl rfl rfl rfl rfl rfl, rfl⟩
    · rw [decCommand_length s h h5]
      exact ⟨.mk' rfl rfl rfl rfl rfl rfl rfl, rfl⟩
  · rw [decCommand_refused s (Nat.lt_of_not_le h)]
    exact ⟨.mk' rfl rfl rfl rfl rfl rfl rfl, rfl⟩

/-- What `CHROF` keeps. -/
theorem chrofCommand_keeps (s : State) : s.SameInputs (chrofCommand s) ∧ (chrofCommand s).output = s.output := by
  simp only [chrofCommand]
  split <;> exact ⟨.mk' rfl rfl rfl rfl rfl rfl rfl, rfl⟩

/-- What `VALOF` keeps. -/
theorem valofCommand_keeps (s : State) : s.SameInputs (valofCommand s) ∧ (valofCommand s).output = s.output := by
  simp only [valofCommand]
  split <;> exact ⟨.mk' rfl rfl rfl rfl rfl rfl rfl, rfl⟩

/-- What a write to `CMD` keeps, whatever its data. -/
theorem commandOf_keeps (d : Word) (s : State) :
    s.SameInputs (commandOf d s) ∧ (commandOf d s).output = s.output := by
  have hr : s.SameInputs (reservedCommand s) ∧ (reservedCommand s).output = s.output :=
    ⟨.mk' rfl rfl rfl rfl rfl rfl rfl, rfl⟩
  unfold commandOf
  split
  · exact encCommand_keeps s
  · exact decCommand_keeps s
  · exact chrofCommand_keeps s
  · exact valofCommand_keeps s
  · exact hr
  · exact hr
  · exact hr

/-- The five things a write to `CMD` can run. -/
theorem commandOf_cases (d : Word) (s : State) :
    commandOf d s = encCommand s ∨ commandOf d s = decCommand s ∨ commandOf d s = chrofCommand s ∨
    commandOf d s = valofCommand s ∨ commandOf d s = reservedCommand s := by
  unfold commandOf
  split
  · exact .inl rfl
  · exact .inr (.inl rfl)
  · exact .inr (.inr (.inl rfl))
  · exact .inr (.inr (.inr (.inl rfl)))
  · exact .inr (.inr (.inr (.inr rfl)))
  · exact .inr (.inr (.inr (.inr rfl)))
  · exact .inr (.inr (.inr (.inr rfl)))

/-! ### Transactions -/

/-- The four things a bus write can do (R161). -/
theorem writeBus_cases (s : State) (a : BusAddr) (d : Word) :
    s.writeBus a d = (commandOf d s).respond .ack ∨ s.writeBus a d = s.respond .buserr ∨
    (∃ off len arg, s.writeBus a d = ({ s with off := off, len := len, arg := arg } : State).respond .ack) ∨
    (∃ i, a.toNat = 0x10000 + i ∧ i < s.config.cap ∧ d.toNat < 2 ^ 21 ∧
      s.writeBus a d = (s.writeIbuf i (cellOf d)).respond .ack) := by
  rcases addr_cases a with rfl | rfl | rfl | rfl | rfl | rfl | rfl | rfl | rfl | rfl | rfl | h | h | h
  · exact .inl rfl
  · exact .inr (.inl rfl)
  · exact .inr (.inr (.inl ⟨_, _, _, rfl⟩))
  · exact .inr (.inr (.inl ⟨_, _, _, rfl⟩))
  · exact .inr (.inl rfl)
  · exact .inr (.inl rfl)
  · exact .inr (.inl rfl)
  · exact .inr (.inl rfl)
  · exact .inr (.inl rfl)
  · exact .inr (.inr (.inl ⟨_, _, _, rfl⟩))
  · exact .inr (.inl rfl)
  · exact .inr (.inl (by simp only [State.writeBus, locate_unmapped a h.1 h.2]))
  · by_cases hw : a.toNat - 0x10000 < s.config.cap ∧ fitsCell d = true
    · refine .inr (.inr (.inr ⟨a.toNat - 0x10000, by omega, hw.1, (fitsCell_iff d).1 hw.2, ?_⟩))
      simp only [State.writeBus, locate_ibuf a h.1 h.2, State.writeCell]
      rw [if_pos hw]
    · refine .inr (.inl ?_)
      simp only [State.writeBus, locate_ibuf a h.1 h.2, State.writeCell]
      rw [if_neg hw]
  · exact .inr (.inl (by simp only [State.writeBus, locate_obuf a h]))

/-- A write that is not to `CMD` leaves the outcome and its character record as they were (R161). -/
theorem writeBus_keeps_record (s : State) (a : BusAddr) (d : Word) (h : a ≠ 0) :
    (s.writeBus a d).kind = s.kind ∧ (s.writeBus a d).echar = s.echar ∧ (s.writeBus a d).epos = s.epos := by
  rcases addr_cases a with e | e | e | e | e | e | e | e | e | e | e | e | e | e
  · exact absurd e h
  all_goals first
    | (rw [e]; exact ⟨rfl, rfl, rfl⟩)
    | (simp only [State.writeBus, locate_unmapped _ e.1 e.2]; exact ⟨rfl, rfl, rfl⟩)
    | (simp only [State.writeBus, locate_ibuf _ e.1 e.2, State.writeCell]; split <;> exact ⟨rfl, rfl, rfl⟩)
    | (simp only [State.writeBus, locate_obuf _ e]; exact ⟨rfl, rfl, rfl⟩)

/-- What a transaction's instruction does to the state, response included: a read answers, a write does what R161 says,
and a command word runs its command. -/
theorem decode_cases (w : BusWord) (s : State) :
    (busWe w = false ∧ exec (decode w) s = .next (s.respond (s.readBus (busAddr w)))) ∨
    (busWe w = true ∧ exec (decode w) s = .next (s.writeBus (busAddr w) (busData w))) := by
  cases hw : busWe w
  · exact .inl ⟨rfl, by rw [decode, hw]; rfl⟩
  · refine .inr ⟨rfl, ?_⟩
    rw [decode, hw]
    simp only [if_true, decodeWrite]
    by_cases ha : busAddr w = 0
    · rw [if_pos ha]
      have hcmd : s.writeBus (busAddr w) (busData w) = (commandOf (busData w) s).respond .ack := by rw [ha]; rfl
      rw [hcmd]
      cases hd : decodeCmd (busData w) with
      | error e => exact congrArg Host.Outcome.next hcmd
      | ok i =>
        have hi : i = .enc ∨ i = .dec ∨ i = .chrof ∨ i = .valof := by
          unfold decodeCmd at hd
          split_ifs at hd <;> cases hd <;> simp
        rcases hi with rfl | rfl | rfl | rfl <;> (simp only [commandOf, hd]; rfl)
    · rw [if_neg ha]
      rfl

/-! ### Steps -/

/-- The five things a step can do (R64, R198, R210, R211). -/
theorem step_cases (s : State) :
    (s.input = [] ∧ step s = .next s) ∨
    (∃ w rest, s.input = .transaction w :: rest ∧ step s = exec (decode w) { s with input := rest }) ∨
    (∃ rest, s.input = .reset :: rest ∧ step s = .next (State.applyReset { s with input := rest })) ∨
    (∃ d rest, s.input = .resetDuringCommand d :: rest ∧
      step s = .next (State.applyResetDuringCommand { s with input := rest })) ∨
    (∃ rest, s.input = .powerOn :: rest ∧ step s = .next (State.applyPowerOn { s with input := rest })) := by
  rcases h : s.input with _ | ⟨e, rest⟩
  · exact .inl ⟨rfl, by simp only [step, State.takeEvent, h]⟩
  · cases e with
    | transaction w => exact .inr (.inl ⟨w, rest, rfl, by simp only [step, State.takeEvent, h]⟩)
    | reset => exact .inr (.inr (.inl ⟨rest, rfl, by simp only [step, State.takeEvent, h]⟩))
    | resetDuringCommand d =>
      exact .inr (.inr (.inr (.inl ⟨d, rest, rfl, by simp only [step, State.takeEvent, h]⟩)))
    | powerOn => exact .inr (.inr (.inr (.inr ⟨rest, rfl, by simp only [step, State.takeEvent, h]⟩)))

end Sys2Proof.Machine
end

