-- ==== Sys2Proof/Laws/Tables.lean ====
section
/-! SUPPORT. Looking a character up in a listing (40_alphabet_tables.md R93, R96). -/

namespace Sys2Proof.Machine

/-- A place found is inside the listing and holds the character. -/
theorem placeOf_some (c : CharCell) (l : List AsciiCode) (d n : Nat) (h : placeOf c l d = some n) :
    d ≤ n ∧ n < d + l.length ∧ ∃ a, l[n - d]? = some a ∧ a.setWidth 21 = c := by
  induction l generalizing d with
  | nil => simp [placeOf] at h
  | cons a l ih =>
    rw [placeOf] at h
    split at h
    · cases h
      exact ⟨Nat.le_refl _, by simp, a, by simp, ‹_›⟩
    · obtain ⟨h1, h2, b, h3, h4⟩ := ih (d + 1) h
      refine ⟨by omega, by simp only [List.length_cons]; omega, b, ?_, h4⟩
      rw [show n - d = (n - (d + 1)) + 1 by omega, List.getElem?_cons_succ]
      exact h3

/-- A base-85 digit is below 85. -/
theorem digitOf_lt (v i : Nat) : digitOf v i < 85 := Nat.mod_lt _ (by decide)

/-- A digit value survives the 7-bit datapath. -/
theorem digit_toNat (n : Nat) (h : n < 85) : (BitVec.ofNat 7 n : Digit).toNat = n := by
  rw [BitVec.toNat_ofNat]
  omega

/-- A group of four bytes is a 32-bit number (R113). -/
theorem State.encValue_lt (s : State) (g : Nat) : s.encValue g < 2 ^ 32 := by
  have hb : ∀ i, (s.viewByte i).toNat < 2 ^ 8 := fun i => (s.viewByte i).isLt
  have h0 := hb (4 * g)
  have h1 := hb (4 * g + 1)
  have h2 := hb (4 * g + 2)
  have h3 := hb (4 * g + 3)
  unfold State.encValue
  omega

end Sys2Proof.Machine
end

