-- ==== Sys2Proof/Tests/Slice0.lean ====
section
/-! SUPPORT. Tests: the WellFormed smoke test, decoding of words written out from the spec's encodings, at most two
steps per instruction with the expected results of 95_test_vectors.md, and for every obligation with hypotheses a
concrete state and operands that meet them (witness_<its name>). -/

namespace Sys2Proof.Tests

open Sys2Proof.Machine

/-! ### Helpers -/

/-- The state after one instruction. -/
def after (i : Instr) (s : State) : State :=
  match exec i s with
  | .next t => t
  | .fault _ => s
  | .refused _ => s

/-- The state after one step. -/
def stepped (s : State) : State :=
  match step s with
  | .next t => t
  | .fault _ => s
  | .refused _ => s

def cellsFrom (i : Nat) : List CharCell → Memory 21
  | [] => []
  | c :: cs => (i, c) :: cellsFrom (i + 1) cs

/-- A view of these cells at `off`, and nothing else written. -/
def viewOf (off : Word) (cs : List CharCell) : State :=
  { State.reset with off := off, len := BitVec.ofNat 32 cs.length, ibuf := cellsFrom off.toNat cs }

/-- What is readable in `OBUF`. -/
def result (s : State) : List Byte := (List.range s.olen.toNat).map s.obufCell

/-- The outcome registers, all but `RES`: `KIND`, `OLEN`, `ELEN`, `EMULT`, `ECHAR`, `EPOS`. -/
def outcome (s : State) : Kind × List Nat :=
  (s.kind, [s.olen.toNat, s.elen.toNat, s.emult.toNat, s.echar.toNat, s.epos.toNat])

/-- The last answer on the bus. -/
def answer (s : State) : Response := s.output.headD .buserr

def helloBytes : List CharCell := [0x86, 0x4F, 0xD2, 0x6F, 0xB5, 0x59, 0xF7, 0x5B]
def helloText : List CharCell := [0x48, 0x65, 0x6C, 0x6C, 0x6F, 0x57, 0x6F, 0x72, 0x6C, 0x64]
/-- `"%nSc1"`, the smallest text whose exact value does not fit (R136). -/
def wrapText : List CharCell := [0x25, 0x6E, 0x53, 0x63, 0x31]
/-- `"a_b_0"`, two characters outside the alphabet. -/
def badText : List CharCell := [0x61, 0x5F, 0x62, 0x5F, 0x30]

/-- V-DEC row 16: only the last character is outside the alphabet. -/
def lastBadText : List CharCell := [0x30, 0x30, 0x30, 0x30, 0x5F]

/-! ### WellFormed -/

/-- The one check: a write to `CMD` of a command word is no well-formed `WR` (R70, R73). -/
theorem test_wellFormed_refuses : (Instr.wr 0 1).wellFormed = false ∧ (Instr.wr 0 4).wellFormed = false := by decide

/-- Its neighbours are well-formed: reserved words (R74), and the same data to another address. -/
theorem test_wellFormed_accepts :
    (Instr.wr 0 0).wellFormed = true ∧ (Instr.wr 0 5).wellFormed = true ∧ (Instr.wr 0 0x80000001).wellFormed = true ∧
    (Instr.wr 9 1).wellFormed = true := by decide

/-! ### Decoding: the words are those of 95_test_vectors.md parts V-BUS and 3, and of R71 to R74 bit by bit -/

/-- P1: `RD OBUF+4`; `we = 0`, `addr = 0b10_0000_0000_0000_0100`, data ignored. -/
theorem test_decode_rd :
    decode 0b010000000000000010000000000000000000000000000000000#51 = .rd 0x20004 ∧
    decode 0x2000400000000#51 = .rd 0x20004 ∧ decode 0x2000400000001#51 = .rd 0x20004 := by decide

/-- P1: `WR IBUF+3, 0x0C`; P4: `WR OBUF+0, 0x0`; and `WR CMD, 0x11`, whose `ZERO` field is not 0. -/
theorem test_decode_wr :
    decode 0x500030000000C#51 = .wr 0x10003 0x0C ∧ decode 0x6000000000000#51 = .wr 0x20000 0 ∧
    decode 0x4000000000011#51 = .wr 0 0x11 := by decide

/-- The four `CMD` words of R73 inside writes to address 0 (P1, P2, P4). -/
theorem test_decode_commands :
    decode 0x4000000000001#51 = .enc ∧ decode 0x4000000000002#51 = .dec ∧ decode 0x4000000000003#51 = .chrof ∧
    decode 0x4000000000004#51 = .valof := by decide

/-- The `CMD` format on its own (R72 to R74): both reserved cases by name. -/
theorem test_decodeCmd :
    decodeCmd 1 = .ok .enc ∧ decodeCmd 0 = .error .codeUnassigned ∧ decodeCmd 15 = .error .codeUnassigned ∧
    decodeCmd 0x10 = .error .zeroFieldSet ∧ decodeCmd 0x80000001 = .error .zeroFieldSet :=
  ⟨rfl, rfl, rfl, rfl, rfl⟩

/-- The words of spec/opcode_table.json, `CMD` rows in 4 bytes and `BUS` rows in 7. -/
theorem test_decodeTableWord :
    decodeTableWord 32 1 = some .enc ∧ decodeTableWord 32 2 = some .dec ∧ decodeTableWord 32 3 = some .chrof ∧
    decodeTableWord 32 4 = some .valof ∧ decodeTableWord 56 0 = some (.rd 0) ∧
    decodeTableWord 56 (2 ^ 50) = some (.wr 0 0) ∧ decodeTableWord 56 (2 ^ 51) = none := by decide

/-- The step after placing a word runs it: `ENC` of the empty view is acknowledged, `RD STATUS` answers 0. -/
theorem test_withFetchWord :
    (stepped (State.reset.withFetchWord 32 1)).output = [.ack] ∧
    (stepped (State.reset.withFetchWord 56 0x0000100000000)).output = [.data 0] := by decide

/-! ### One step per instruction, results from 95_test_vectors.md -/

/-- R160's example: after the example of R118, `RD OBUF+4` answers 0x47 and `RD OBUF+5` is `buserr`. -/
theorem test_rd_obuf :
    answer (after (.rd 0x20004) (after .enc (viewOf 0 [0x0C, 0x00, 0x0F, 0x0F]))) = .data 0x47 ∧
    answer (after (.rd 0x20005) (after .enc (viewOf 0 [0x0C, 0x00, 0x0F, 0x0F]))) = .buserr := by decide

/-- P4: `RD CMD`, `RD IBUF+0`, `RD 0x0000B` are `buserr`. -/
theorem test_rd_buserr :
    answer (after (.rd 0) State.reset) = .buserr ∧ answer (after (.rd 0x10000) State.reset) = .buserr ∧
    answer (after (.rd 0x0000B) State.reset) = .buserr := by decide

/-- R161's corner cases: 0x1FFFFF is stored, 0x200000 is `buserr` and leaves the cell; `IBUF+CAP` is `buserr`. -/
theorem test_wr_ibuf :
    (after (.wr 0x10000 0x1FFFFF) State.reset).ibufCell 0 = 0x1FFFFF ∧
    after (.wr 0x10000 0x200000) (viewOf 0 [7]) = (viewOf 0 [7]).respond .buserr ∧
    answer (after (.wr 0x103E7 0) State.reset) = .ack ∧ answer (after (.wr 0x103E8 0) State.reset) = .buserr := by
  decide

/-- R161, R166, P4: `WR LEN, 0xFFFFFFFF` is stored; `WR STATUS, 0` and `WR OBUF+0, 0` are `buserr`; `WR CMD, 0x11` is
acknowledged and ends `Refused`. -/
theorem test_wr_registers :
    (after (.wr 3 0xFFFFFFFF) State.reset).len = 0xFFFFFFFF ∧ answer (after (.wr 1 0) State.reset) = .buserr ∧
    answer (after (.wr 0x20000 0) State.reset) = .buserr ∧ answer (after (.wr 0 0x11) State.reset) = .ack ∧
    (after (.wr 0 0x11) State.reset).kind = .refused := by decide

/-- S3, P1: eight bytes at `OFF = 3` give `"3&*!G4H@Es"`; V-ENC row 15: only bits [7:0] of a cell count. -/
theorem test_enc :
    result (after .enc (viewOf 3 [0x0C, 0x00, 0x0F, 0x0F, 0x0E, 0x0E, 0x00, 0x00])) =
      [0x33, 0x26, 0x2A, 0x21, 0x47, 0x34, 0x48, 0x40, 0x45, 0x73] ∧
    result (after .enc (viewOf 0 [0x00010C, 0x1FFF00, 0x00000F, 0x10000F])) = [0x33, 0x26, 0x2A, 0x21, 0x47] := by
  decide

/-- S1: length 6; P4: `OFF = 999, LEN = 4` is refused. -/
theorem test_enc_errors :
    outcome (after .enc (viewOf 0 [0x0C, 0x00, 0x0F, 0x0F, 0x0E, 0x0E])) = (.invalidLength, [0, 6, 4, 0, 0]) ∧
    outcome (after .enc { State.reset with off := 999, len := 4 }) = (.refused, [0, 0, 0, 0, 0]) := by decide

/-- P2: `"HelloWorld"`; V-DECG: `"%nSc1"` wraps to 0 with no error. -/
theorem test_dec :
    result (after .dec (viewOf 0 helloText)) = [0x86, 0x4F, 0xD2, 0x6F, 0xB5, 0x59, 0xF7, 0x5B] ∧
    result (after .dec (viewOf 0 wrapText)) = [0, 0, 0, 0] := by decide

/-- S4: `"a_b"` fails by its length; S6: of the two in `"a_b_0"` the first is reported, at position 2. -/
theorem test_dec_errors :
    outcome (after .dec (viewOf 0 [0x61, 0x5F, 0x62])) = (.invalidLength, [0, 3, 5, 0, 0]) ∧
    outcome (after .dec (viewOf 0 badText)) = (.invalidCharacter, [0, 0, 0, 0x5F, 2]) := by decide

/-- V-TAB: `CHROF` of 84 is `'#'`. -/
theorem test_chrof : (after .chrof { State.reset with arg := 84 }).res.word = 0x123 := by decide

/-- V-TAB: 85 and 0x100, whose low 7 bits are 0, are refused with `RES = 0`. -/
theorem test_chrof_refused :
    (after .chrof { State.reset with arg := 85 }).kind = .refused ∧
    (after .chrof { State.reset with arg := 0x100 }).kind = .refused ∧
    (after .chrof { State.reset with arg := 0x100 }).res.word = 0 := by decide

/-- V-TAB: `'0'` is found with value 0, `'#'` with 84. -/
theorem test_valof :
    (after .valof { State.reset with arg := 0x30 }).res.word = 0x100 ∧
    (after .valof { State.reset with arg := 0x23 }).res.word = 0x154 := by decide

/-- V-TAB: 0xB0 and 0x200030, whose low bits are `'0'`, are not found, and the command ends `OK`. -/
theorem test_valof_not_found :
    (after .valof { State.reset with arg := 0xB0 }).res.word = 0 ∧
    (after .valof { State.reset with arg := 0x200030 }).res.word = 0 ∧
    (after .valof { State.reset with arg := 0x200030 }).kind = .ok := by decide

/-! ### Witnesses: encoding -/

/-- One instruction of each row, with its operands at the ends of their ranges. -/
theorem witness_DecodeOfEncodeIsTheInstruction :
    ∀ i ∈ [Instr.rd 0, .rd 0x3FFFF, .wr 0 0, .wr 0 0xFFFFFFFF, .wr 0x3FFFF 0xFFFFFFFF, .enc, .dec, .chrof, .valof],
      i.wellFormed = true := by decide

theorem witness_EncodeOfDecodeIsTheWord :
    busWe 0x4000000000011#51 = true ∧ busWe 0x0000100000000#51 = false ∧ busData 0x0000100000000#51 = 0 := by decide

/-- Every clause at its ends. -/
theorem witness_CommandWordsMatchOnAllBits :
    ((1 : Word).toNat = 1 ∧ (2 : Word).toNat = 2 ∧ (3 : Word).toNat = 3 ∧ (4 : Word).toNat = 4) ∧
    (16 ≤ (0x10 : Word).toNat ∧ 16 ≤ (0xFFFFFFFF : Word).toNat) ∧
    ((0 : Word).toNat = 0 ∧ 5 ≤ (5 : Word).toNat ∧ (15 : Word).toNat ≤ 15) := by decide

/-! ### Witnesses: steps and reset -/

theorem witness_StepRunsTheDecodedTransaction :
    ({ State.reset with input := [.transaction 0x4000000000001#51, .reset] } : State).input =
      .transaction 0x4000000000001#51 :: [.reset] := rfl

/-- Both formats. -/
theorem witness_FetchWordRunsTheTableInstruction :
    decodeTableWord 32 0xFFFFFFFF = some (.wr 0 0xFFFFFFFF) ∧ decodeTableWord 56 0x0000100000000 = some (.rd 1) := by
  decide

theorem witness_IdleStepKeepsTheState : (viewOf 0 helloBytes).input = [] := rfl

/-- A state with a result, an operand and a written cell, about to be reset. -/
def busy (e : HostEvent) : State := { after .dec (viewOf 0 badText) with arg := 7, input := [e] }

theorem witness_ResetClearsTheRegistersAndKeepsIbuf :
    (busy .reset).input = [.reset] ∧ (busy .reset).kind = .invalidCharacter ∧ (busy .reset).ibufCell 0 = 0x61 := by
  decide

theorem witness_ResetDuringACommandGivesNoAnswer :
    (busy (.resetDuringCommand 2)).input = [.resetDuringCommand 2] ∧
    (busy (.resetDuringCommand 2)).kind = .invalidCharacter := by decide

theorem witness_PowerOnForgetsTheBuffers :
    (busy .powerOn).input = [.powerOn] ∧ (busy .powerOn).ibuf ≠ [] := by decide

/-- A read and a write. -/
theorem witness_EveryTransactionIsAnsweredOnce :
    (busy (.transaction 0x0000100000000#51)).input = [.transaction 0x0000100000000#51] ∧
    busWe 0x0000100000000#51 = false ∧ busWe 0x4000000000002#51 = true := by decide

theorem witness_ResetRegistersReadZero :
    (1 ≤ (1 : BusAddr).toNat ∧ (10 : BusAddr).toNat ≤ 10) ∧
    (0x20000 ≤ (0x20000 : BusAddr).toNat ∧ 0x20000 ≤ (0x3FFFF : BusAddr).toNat) := by decide

/-- A state that holds the record of an error and is about to run `DEC`. -/
theorem witness_StepKeepsTheInvariant :
    (busy (.transaction 0x4000000000002#51)).Inv ∧
    step (busy (.transaction 0x4000000000002#51)) = .next (stepped (busy (.transaction 0x4000000000002#51))) :=
  ⟨by constructor <;> decide, rfl⟩

/-- Its last clause: `EPOS = 2` and `WR LEN, 2` to come, the smallest length that keeps the bound. -/
theorem witness_EposStaysWithinLen :
    (busy (.transaction (busWord true 3 2))).Inv ∧ (busy (.transaction (busWord true 3 2))).EposWithinLen ∧
    (busy (.transaction (busWord true 3 2))).kind = .invalidCharacter ∧
    (busy (.transaction (busWord true 3 2))).epos.toNat ≤ (2 : Word).toNat ∧
    step (busy (.transaction (busWord true 3 2))) = .next (stepped (busy (.transaction (busWord true 3 2)))) :=
  ⟨by constructor <;> decide, by unfold State.EposWithinLen State.EposWithin; decide, by decide, by decide, rfl⟩

/-- Its second clause, with the outcome the bound speaks of; the forms are those of witness_commandForms. -/
theorem witness_EposStaysWithinLen_commands :
    (viewOf 0 badText).config.Legal ∧ exec .dec (viewOf 0 badText) = .next (after .dec (viewOf 0 badText)) ∧
    (after .dec (viewOf 0 badText)).kind = .invalidCharacter ∧
    after (.wr 0 2) (viewOf 0 badText) = after .dec (viewOf 0 badText) := ⟨by decide, rfl, by decide, rfl⟩

/-- The two halves of its first clause at their edges: a `CMD` write that leaves a record, at the last place of its view; and `WR LEN, 0`
after a record at position 2 of a view of 5. -/
theorem witness_EposStaysWithinLen_record :
    step { viewOf 0 lastBadText with input := [.transaction (busWord true 0 2)] } =
      .next (stepped { viewOf 0 lastBadText with input := [.transaction (busWord true 0 2)] }) ∧
    (after .dec (viewOf 0 lastBadText)).epos = (viewOf 0 lastBadText).len ∧
    (∀ d rest, (busy (.transaction (busWord true 3 0))).input ≠ .transaction (busWord true 0 d) :: rest) ∧
    (busy (.transaction (busWord true 3 0))).EposWithin 5 ∧
    (stepped (busy (.transaction (busWord true 3 0)))).kind = .invalidCharacter ∧
    (stepped (busy (.transaction (busWord true 3 0)))).len = 0 := by
  refine ⟨rfl, by decide, fun d rest h => ?_, by unfold State.EposWithin; decide, by decide, by decide⟩
  have ha : busAddr (busWord true 3 0) = busAddr (busWord true 0 d) :=
    congrArg busAddr (HostEvent.transaction.inj (List.cons.inj h).1)
  rw [busAddr_busWord, busAddr_busWord] at ha
  exact absurd ha (by decide)

/-! ### Witnesses: the bus -/

/-- One state per outcome, and `FOUND` both ways. -/
theorem witness_RegistersReadAsTheirFields :
    State.reset.kind = .ok ∧ (after .enc (viewOf 0 [1])).kind = .invalidLength ∧
    (after .dec (viewOf 0 badText)).kind = .invalidCharacter ∧
    (after .chrof { State.reset with arg := 85 }).kind = .refused ∧
    (after .valof { State.reset with arg := 0x30 }).res.found = true ∧ State.reset.res.found = false := by decide

/-- Every branch of the map at its ends. -/
theorem witness_WriteActsByTheMap :
    State.reset.config.Legal ∧ (2 : BusAddr) ≠ 0 ∧ (3 : BusAddr) ≠ 0 ∧ (9 : BusAddr) ≠ 0 ∧
    (0x10000 ≤ (0x10000 : BusAddr).toNat ∧ (0x103E7 : BusAddr).toNat < 0x10000 + State.reset.config.cap ∧
      (0x1FFFFF : Word).toNat < 2 ^ 21) ∧
    (¬ (0x103E8 : BusAddr).toNat < 0x10000 + State.reset.config.cap ∧ ¬ (0x200000 : Word).toNat < 2 ^ 21) := by decide

theorem witness_IbufWriteStoresOneCell :
    State.reset.config.Legal ∧ 0 < State.reset.config.cap ∧ 999 < State.reset.config.cap ∧
    (0x1FFFFF : Word).toNat < 2 ^ 21 := by decide

theorem witness_ReservedCommandWordIsRefused :
    cmdZero 0x10 ≠ 0 ∧ cmdZero 0x80000001 ≠ 0 ∧ cmdCode 0 = 0 ∧ 5 ≤ (cmdCode 5).toNat ∧ 5 ≤ (cmdCode 15).toNat := by
  decide

/-- The reads and writes at the ends of the ranges, and a transaction that gets `buserr`. -/
theorem witness_BusErrorExactlyByTheMap :
    State.reset.config.Legal ∧
    (0x0000B ≤ (0x0000B : BusAddr).toNat ∧ (0x1FFFF : BusAddr).toNat < 0x20000 ∧
      0x20000 + State.reset.olen.toNat ≤ (0x20000 : BusAddr).toNat) ∧
    (4 ≤ (4 : BusAddr).toNat ∧ (8 : BusAddr).toNat ≤ 8 ∧ 0x0000A ≤ (0x0000A : BusAddr).toNat ∧
      (0x0FFFF : BusAddr).toNat < 0x10000 ∧ 0x10000 + State.reset.config.cap ≤ (0x103E8 : BusAddr).toNat ∧
      2 ^ 21 ≤ (0x200000 : Word).toNat) ∧
    exec (.rd 0) State.reset = .next (State.reset.respond .buserr) ∧
    (State.reset.respond .buserr).output = .buserr :: State.reset.output :=
  ⟨by decide, by decide, by decide, rfl, rfl⟩

theorem witness_ResultStaysUntilTheNextCommand :
    Instr.rd 0x20000 = .rd 0x20000 ∧ Instr.wr 0x10000 5 = .wr 0x10000 5 ∧ (0x10000 : BusAddr) ≠ 0 :=
  ⟨rfl, rfl, by decide⟩

/-- Four zero cells, and `WR IBUF+3, 0x1FFFFF` to come, the largest data a cell takes. -/
def aboutToWrite : State :=
  { viewOf 0 [0, 0, 0, 0] with input := [.transaction (busWord true 0x10003 0x1FFFFF)] }

/-- The write: cell 3 becomes 0x1FFFFF. -/
theorem witness_OnlyItsWriteChangesAnIbufCell :
    step aboutToWrite = .next (stepped aboutToWrite) ∧
    (stepped aboutToWrite).ibufCell 3 ≠ aboutToWrite.ibufCell 3 := ⟨rfl, by decide⟩

/-- Power-on: a written cell that differs from what the next power-on leaves there. -/
theorem witness_OnlyItsWriteChangesAnIbufCell_powerOn :
    (viewOf 0 [Config.ibufPowerOn 1 0 + 1]).applyPowerOn.ibufCell 0 ≠
      (viewOf 0 [Config.ibufPowerOn 1 0 + 1]).ibufCell 0 := by
  show Config.ibufPowerOn 1 0 ≠ Config.ibufPowerOn 1 0 + 1
  generalize Config.ibufPowerOn 1 0 = c
  intro h
  have := congrArg (· - c) h
  simp at this

/-! ### Witnesses: all commands -/

/-- Each form of the statements about the four commands or about `ENC` and `DEC` that have no other hypothesis:
CommandsNeverChangeTheInput, ResetLooksLikeAnEmptyCall. -/
theorem witness_commandForms :
    (∀ i ∈ [Instr.enc, .dec, .chrof, .valof], i = .enc ∨ i = .dec ∨ i = .chrof ∨ i = .valof) ∧
    (∀ i ∈ [Instr.enc, .dec], i = .enc ∨ i = .dec) := by decide

/-- Two states with the same operands and different pasts. -/
theorem witness_ResultDependsOnlyOnTheOperands :
    (viewOf 0 helloText).config.Legal ∧ (viewOf 0 helloText).config = (busy .reset).config ∧
    (viewOf 0 helloText).SameView { viewOf 0 helloText with kind := .refused, epos := 3, obuf := [(2, 9)] } :=
  ⟨by decide, by decide, rfl, fun _ _ => rfl⟩

/-- The same ten characters at two places. -/
theorem witness_EqualViewsGiveEqualOutcomes :
    (viewOf 0 helloText).config.Legal ∧
    (viewOf 0 helloText).off.toNat + (viewOf 0 helloText).len.toNat ≤ (viewOf 0 helloText).config.cap ∧
    (viewOf 990 helloText).off.toNat + (viewOf 990 helloText).len.toNat ≤ (viewOf 990 helloText).config.cap ∧
    (viewOf 0 helloText).SameView (viewOf 990 helloText) :=
  ⟨by decide, by decide, by decide, by decide, by decide⟩

/-- `CAP` and `CAP + 1`, and the sum that would wrap. -/
theorem witness_RefusedExactlyWhenTheViewDoesNotFit :
    (State.reset.config.cap < (997 : Word).toNat + (4 : Word).toNat) ∧
    ¬ State.reset.config.cap < (996 : Word).toNat + (4 : Word).toNat ∧
    State.reset.config.cap < (0xFFFFFFFF : Word).toNat + (1 : Word).toNat := by decide

/-- Both instructions with their multiple, and a state in which each ends so. -/
theorem witness_InvalidLengthExactlyAndItsRecord :
    ((Instr.enc = .enc ∧ (4 : Word) = 4) ∨ (Instr.enc = .dec ∧ (4 : Word) = 5)) ∧
    ((Instr.dec = .enc ∧ (5 : Word) = 4) ∨ (Instr.dec = .dec ∧ (5 : Word) = 5)) ∧
    (after .enc (viewOf 993 [1, 2, 3, 4, 5, 6, 7])).kind = .invalidLength ∧
    (after .dec (viewOf 0 [0x61, 0x5F, 0x62])).kind = .invalidLength := by decide

/-- A state for each clause. -/
theorem witness_OutcomeByPriority :
    State.reset.config.Legal ∧ (cmdZero 0x10 ≠ 0 ∧ cmdCode 0 = 0 ∧ 5 ≤ (cmdCode 5).toNat) ∧
    (after .dec { State.reset with off := 1000, len := 1 }).kind = .refused ∧
    (after .dec (viewOf 0 [0x61, 0x5F, 0x62])).kind = .invalidLength ∧
    (after .dec (viewOf 0 badText)).kind = .invalidCharacter ∧ (after .dec (viewOf 0 helloText)).kind = .ok := by decide

/-- A failure of each form and of each outcome; the last is a reserved `CMD` word. -/
theorem witness_FailureLeavesOnlyItsRecord :
    State.reset.config.Legal ∧
    (exec .enc (viewOf 0 [1]) = .next (after .enc (viewOf 0 [1])) ∧ (after .enc (viewOf 0 [1])).kind = .invalidLength) ∧
    (exec .dec (viewOf 0 badText) = .next (after .dec (viewOf 0 badText)) ∧
      (after .dec (viewOf 0 badText)).kind = .invalidCharacter) ∧
    (after .chrof { State.reset with arg := 85 }).kind = .refused ∧ (after (.wr 0 5) State.reset).kind = .refused ∧
    0x20000 ≤ (0x20000 : BusAddr).toNat :=
  ⟨by decide, ⟨rfl, by decide⟩, ⟨rfl, by decide⟩, by decide, by decide, by decide⟩

/-- At the end of the buffer. -/
theorem witness_EmptyViewSucceeds :
    ({ State.reset with off := 1000 } : State).len = 0 ∧
    ({ State.reset with off := 1000 } : State).off.toNat ≤ State.reset.config.cap := by decide

/-! ### Witnesses: the tables -/

theorem witness_AlphabetInClosedForm :
    (0 : Digit).toNat ≤ 9 ∧ (9 : Digit).toNat ≤ 9 ∧ 10 ≤ (10 : Digit).toNat ∧ (35 : Digit).toNat ≤ 35 ∧
    36 ≤ (36 : Digit).toNat ∧ (61 : Digit).toNat ≤ 61 := by decide

theorem witness_AlphabetIsDistinctAndPrintable :
    (0 : Digit).toNat ≤ 84 ∧ (84 : Digit).toNat ≤ 84 ∧ 0x20 ≤ 0x20 ∧ 0x7E ≤ 0x7E := by decide

theorem witness_TablesAreInverse : (84 : Digit).toNat ≤ 84 ∧ valueOf 0x23 = some 84 ∧ valueOf 0x30 = some 0 := by decide

theorem witness_OnlyAsciiIsFound :
    0x80 ≤ (0x80 : CharCell).toNat ∧ 0x80 ≤ (0x1FFFFF : CharCell).toNat ∧ (0x20 : CharCell).toNat ≤ 0x20 := by decide

theorem witness_ChrofWholeEffect :
    84 < (85 : Word).toNat ∧ 84 < (0x80000003 : Word).toNat ∧ (84 : Word).toNat ≤ 84 ∧ (0 : Word).toNat ≤ 84 := by decide

/-! ### Witnesses: the encoder -/

/-- The five digits of 0xFFFFFFFF (R122). -/
theorem witness_DigitsAreTheNumeral :
    82 ≤ 84 ∧ 23 ≤ 84 ∧ 54 ≤ 84 ∧ 12 ≤ 84 ∧ 0 ≤ 84 ∧
    (0xFFFFFFFF : Word).toNat = 82 * 52200625 + 23 * 614125 + 54 * 7225 + 12 * 85 + 0 := by decide

/-- A view of two groups that ends at `CAP`. -/
theorem witness_EncodeGivesEveryGroup :
    (viewOf 992 helloBytes).config.Legal ∧
    (viewOf 992 helloBytes).off.toNat + (viewOf 992 helloBytes).len.toNat ≤ (viewOf 992 helloBytes).config.cap ∧
    (viewOf 992 helloBytes).len.toNat % 4 = 0 ∧ 1 < (viewOf 992 helloBytes).len.toNat / 4 := by decide

theorem witness_EncodeOutputIsInTheAlphabet :
    (viewOf 0 helloBytes).config.Legal ∧
    exec .enc (viewOf 0 helloBytes) = .next (after .enc (viewOf 0 helloBytes)) ∧
    (after .enc (viewOf 0 helloBytes)).kind = .ok ∧ 9 < (after .enc (viewOf 0 helloBytes)).olen.toNat :=
  ⟨by decide, rfl, by decide, by decide⟩

/-- Views that differ above bit 7 and in place, with the same output (V-ENC row 15). -/
theorem witness_EncodeIsInjective :
    (viewOf 0 [0x0C, 0x00, 0x0F, 0x0F]).len = (viewOf 3 [0x00010C, 0x1FFF00, 0x00000F, 0x10000F]).len ∧
    (after .enc (viewOf 0 [0x0C, 0x00, 0x0F, 0x0F])).kind = .ok ∧
    (after .enc (viewOf 3 [0x00010C, 0x1FFF00, 0x00000F, 0x10000F])).kind = .ok ∧
    result (after .enc (viewOf 0 [0x0C, 0x00, 0x0F, 0x0F])) =
      result (after .enc (viewOf 3 [0x00010C, 0x1FFF00, 0x00000F, 0x10000F])) := by decide

/-! ### Witnesses: the decoder -/

/-- `"%nSc1%nSc0#####"`: the smallest group that does not fit, the largest that does, the largest of all (R136). -/
def edgeText : List CharCell :=
  wrapText ++ [0x25, 0x6E, 0x53, 0x63, 0x30] ++ [0x23, 0x23, 0x23, 0x23, 0x23]

theorem witness_OverflowingGroups :
    (viewOf 0 edgeText).config.Legal ∧
    (viewOf 0 edgeText).off.toNat + (viewOf 0 edgeText).len.toNat ≤ (viewOf 0 edgeText).config.cap ∧
    (viewOf 0 edgeText).len.toNat % 5 = 0 ∧ (viewOf 0 edgeText).ViewInAlphabet ∧
    2 < (viewOf 0 edgeText).len.toNat / 5 ∧
    2 ^ 32 ≤ (viewOf 0 edgeText).decValue 0 ∧ (viewOf 0 edgeText).decValue 1 < 2 ^ 32 ∧
    2 ^ 32 ≤ (viewOf 0 edgeText).decValue 2 :=
  ⟨by decide, by decide, by decide, by unfold State.ViewInAlphabet; decide, by decide, by decide, by decide, by decide⟩

/-- A group that wraps, at the end of the buffer. -/
theorem witness_DecodeGivesEveryGroup :
    (viewOf 995 wrapText).config.Legal ∧
    (viewOf 995 wrapText).off.toNat + (viewOf 995 wrapText).len.toNat ≤ (viewOf 995 wrapText).config.cap ∧
    (viewOf 995 wrapText).len.toNat % 5 = 0 ∧ (viewOf 995 wrapText).ViewInAlphabet :=
  ⟨by decide, by decide, by decide, by unfold State.ViewInAlphabet; decide⟩

/-- The first invalid character at the first, second and last place of the view. -/
theorem witness_FirstInvalidCharacterIsReported :
    (valueOf ((viewOf 0 [0x5F, 0x30, 0x30, 0x30, 0x30]).viewChar 0) = none) ∧
    (valueOf ((viewOf 0 badText).viewChar 1) = none ∧
      ∀ k < 1, (valueOf ((viewOf 0 badText).viewChar k)).isSome) ∧
    (valueOf ((viewOf 0 [0x30, 0x30, 0x30, 0x30, 0xD8]).viewChar 4) = none ∧
      ∀ k < 4, (valueOf ((viewOf 0 [0x30, 0x30, 0x30, 0x30, 0xD8]).viewChar k)).isSome) ∧
    (viewOf 0 badText).config.Legal ∧ 1 < (viewOf 0 badText).len.toNat ∧ (viewOf 0 badText).len.toNat % 5 = 0 ∧
    (viewOf 0 badText).off.toNat + (viewOf 0 badText).len.toNat ≤ (viewOf 0 badText).config.cap := by decide

/-- `"a_b_0"` and `"a_000"` agree up to their first invalid character. -/
theorem witness_NothingAfterTheFirstInvalidMatters :
    (∀ k ≤ 1, (viewOf 0 badText).viewChar k = (viewOf 7 [0x61, 0x5F, 0x30, 0x30, 0x30]).viewChar k) ∧
    valueOf ((viewOf 0 badText).viewChar 1) = none ∧
    (viewOf 7 [0x61, 0x5F, 0x30, 0x30, 0x30]).len.toNat % 5 = 0 ∧
    (viewOf 7 [0x61, 0x5F, 0x30, 0x30, 0x30]).config.Legal := by decide

/-! ### Witnesses: the laws -/

/-- S3: the two groups alone and together. -/
theorem witness_EncodeOfConcatenation :
    (after .enc (viewOf 0 [0x0C, 0x00, 0x0F, 0x0F])).kind = .ok ∧ (after .enc (viewOf 7 [0x0E, 0x0E, 0, 0])).kind = .ok ∧
    (viewOf 3 [0x0C, 0x00, 0x0F, 0x0F, 0x0E, 0x0E, 0, 0]).config.Legal ∧
    (∀ k < 4, (viewOf 3 [0x0C, 0x00, 0x0F, 0x0F, 0x0E, 0x0E, 0, 0]).viewByte k =
      (viewOf 0 [0x0C, 0x00, 0x0F, 0x0F]).viewByte k) ∧
    (∀ k < 4, (viewOf 3 [0x0C, 0x00, 0x0F, 0x0F, 0x0E, 0x0E, 0, 0]).viewByte (4 + k) =
      (viewOf 7 [0x0E, 0x0E, 0, 0]).viewByte k) := by decide

/-- `"Hello"`, `"World"` and both. -/
theorem witness_DecodeOfConcatenation :
    (after .dec (viewOf 0 [0x48, 0x65, 0x6C, 0x6C, 0x6F])).kind = .ok ∧
    (after .dec (viewOf 7 [0x57, 0x6F, 0x72, 0x6C, 0x64])).kind = .ok ∧ (viewOf 3 helloText).config.Legal ∧
    (∀ k < 5, (viewOf 3 helloText).viewChar k = (viewOf 0 [0x48, 0x65, 0x6C, 0x6C, 0x6F]).viewChar k) ∧
    (∀ k < 5, (viewOf 3 helloText).viewChar (5 + k) = (viewOf 7 [0x57, 0x6F, 0x72, 0x6C, 0x64]).viewChar k) := by
  decide

/-- G3 of 93_implementation_defined.md both ways: the eight bytes, and `"HelloWorld"` in a view of a second state. -/
theorem witness_DecodeOfEncodeIsTheBytes :
    (viewOf 0 helloBytes).BytesInView ∧
    exec .enc (viewOf 0 helloBytes) = .next (after .enc (viewOf 0 helloBytes)) ∧
    (viewOf 20 helloText).config.Legal ∧ (viewOf 20 helloText).len = (after .enc (viewOf 0 helloBytes)).olen ∧
    (viewOf 20 helloText).off.toNat + (viewOf 20 helloText).len.toNat ≤ (viewOf 20 helloText).config.cap ∧
    (∀ k < (after .enc (viewOf 0 helloBytes)).olen.toNat,
      (viewOf 20 helloText).viewChar k = ((after .enc (viewOf 0 helloBytes)).obufCell k).setWidth 21) :=
  ⟨by unfold State.BytesInView; decide, rfl, by decide, by decide, by decide, by decide⟩

theorem witness_EncodeOfDecodeIsTheCanonicalString :
    (viewOf 0 helloText).ViewInAlphabet ∧
    (∀ g < (viewOf 0 helloText).len.toNat / 5, (viewOf 0 helloText).decValue g < 2 ^ 32) ∧
    exec .dec (viewOf 0 helloText) = .next (after .dec (viewOf 0 helloText)) ∧
    (viewOf 20 helloBytes).config.Legal ∧ (viewOf 20 helloBytes).len = (after .dec (viewOf 0 helloText)).olen ∧
    (∀ k < (after .dec (viewOf 0 helloText)).olen.toNat,
      (viewOf 20 helloBytes).viewChar k = ((after .dec (viewOf 0 helloText)).obufCell k).setWidth 21) :=
  ⟨by unfold State.ViewInAlphabet; decide, by decide, rfl, by decide, by decide, by decide⟩

/-- A position that is not 0, and the largest. -/
theorem witness_MessageHasTheFixedWording : (1 : Word) ≠ 0 ∧ (0xFFFFFFFF : Word) ≠ 0 := by decide

end Sys2Proof.Tests
end

section
/-! SUPPORT. Facts about scans, commands, writes and steps that the statements of 10_state.md share. -/

namespace Sys2Proof.Machine

/-! ### Scans -/

/-- Every `OBUF` cell below the complete groups is one the encoder wrote, and what it wrote there. -/
theorem EncoderAt.read {s t : State} {k : Nat} (h : EncoderAt s k t) {j : Nat} (hj : j < k / 4 * 5) :
    Memory.read t.obuf j = some (s.encChar (j / 5) (j % 5)) := by
  have := h.written (j / 5) (j % 5) (by omega) (by omega)
  rwa [Nat.div_add_mod] at this

/-- Every `OBUF` cell below the complete groups is one the decoder wrote, and what it wrote there. -/
theorem DecoderAt.read {s t : State} {k : Nat} (h : DecoderAt s k t) {j : Nat} (hj : j < k / 5 * 4) :
    Memory.read t.obuf j = some (s.decByte (j / 4) (j % 4)) := by
  have := h.written (j / 4) (j % 4) (by omega) (by omega)
  rwa [Nat.div_add_mod] at this

theorem OnlyOutputAndWork.config {s t : State} (h : OnlyOutputAndWork s t) : t.config = s.config := by
  obtain ⟨o, w, rfl⟩ := h
  rfl

/-- `OLEN` holds the number of characters of any view that fits: no wrap (R27). -/
theorem encOlen_toNat {n : Nat} (hn : n < 2 ^ 17) : (BitVec.ofNat 32 (n / 4 * 5) : Word).toNat = n / 4 * 5 := by
  rw [BitVec.toNat_ofNat]
  omega

/-- `OLEN` holds the number of bytes of any view that fits: no wrap (R27). -/
theorem decOlen_toNat {n : Nat} (hn : n < 2 ^ 17) : (BitVec.ofNat 32 (n / 5 * 4) : Word).toNat = n / 5 * 4 := by
  rw [BitVec.toNat_ofNat]
  omega

/-- The position the decoder latches at cell `p` is `p + 1`, with no wrap (R133, R186). -/
theorem DecoderAt.epos_toNat {s t : State} {p : Nat} (h : DecoderAt s p t) :
    (BitVec.ofNat 32 (t.work.pos.toNat + 1) : Word).toNat = p + 1 := by
  have := t.work.pos.isLt
  rw [BitVec.toNat_ofNat, h.pos]
  rw [h.pos] at this
  omega

/-! ### The table commands -/

theorem chrofCommand_eq (s : State) :
    chrofCommand s = if s.arg.toNat > 84 then s.prologue.raise .refused
      else s.prologue.finishTable (resOfDigit (s.arg.setWidth 7)) := rfl

theorem valofCommand_eq (s : State) :
    valofCommand s = s.prologue.finishTable (if fitsCell s.arg then resOfChar (cellOf s.arg) else ⟨0, false⟩) :=
  (apply_ite s.prologue.finishTable _ _ _).symm

/-! ### Writes and steps -/

/-- The instruction of a command is a write to `CMD` of some word (R70). -/
theorem exec_command {i : Instr} (h : i = .enc ∨ i = .dec ∨ i = .chrof ∨ i = .valof ∨ ∃ d, i = .wr 0 d) (s : State) :
    ∃ d, exec i s = .next ((commandOf d s).respond .ack) := by
  rcases h with rfl | rfl | rfl | rfl | ⟨d, rfl⟩
  · exact ⟨1, rfl⟩
  · exact ⟨2, rfl⟩
  · exact ⟨3, rfl⟩
  · exact ⟨4, rfl⟩
  · exact ⟨d, rfl⟩

/-- A write changes `LEN` exactly when it is addressed there (R161). -/
theorem writeBus_len (s : State) (a : BusAddr) (d : Word) :
    (s.writeBus a d).len = if a = 0x00003 then d else s.len := by
  by_cases h : a = 0x00003
  · subst h
    rfl
  rw [if_neg h]
  rcases addr_cases a with rfl | rfl | rfl | rfl | rfl | rfl | rfl | rfl | rfl | rfl | rfl | hr | hr | hr
  · exact (commandOf_keeps d s).1.len
  · rfl
  · rfl
  · exact absurd rfl h
  iterate 7 rfl
  · rw [State.writeBus, locate_unmapped a hr.1 hr.2]
    rfl
  · rw [State.writeBus, locate_ibuf a hr.1 hr.2]
    simp only [State.writeCell]
    split <;> rfl
  · rw [State.writeBus, locate_obuf a hr]
    rfl

theorem step_transaction {s : State} {w : BusWord} {rest : List HostEvent} (h : s.input = .transaction w :: rest) :
    step s = exec (decode w) { s with input := rest } := by
  simp only [step, State.takeEvent, h]

/-- A write of any word to `CMD` runs what the word selects (R70, R165). -/
theorem step_commandWrite {s : State} {d : Word} {rest : List HostEvent}
    (h : s.input = .transaction (busWord true 0 d) :: rest) :
    step s = .next ((commandOf d { s with input := rest }).respond .ack) := by
  rw [step_transaction h]
  rcases decode_cases (busWord true 0 d) { s with input := rest } with ⟨hw, _⟩ | ⟨_, e⟩
  · rw [busWe_busWord] at hw
    cases hw
  · rw [e, busAddr_busWord, busData_busWord]
    rfl

end Sys2Proof.Machine
end

section
/-! SUPPORT. The invariant under each thing a step can do (10_state.md R42), and its step lemma. -/

namespace Sys2Proof.Machine

/-! ### No result and no record -/

/-- The buffers in order, no result and no record: what the prologue (R181) and every reset (R210, R211) leave, whatever
the outcome of the last command was. Every outcome of a command starts from here. -/
structure State.Cleared (s : State) : Prop where
  capLegal : s.config.Legal
  ibufWf : Memory.wf s.ibuf
  ibufBelow : Memory.below s.ibuf s.config.cap
  obufWf : Memory.wf s.obuf
  obufBelow : Memory.below s.obuf s.config.obufCells
  olen : s.olen = 0
  noRecord : s.NoRecord
  res : s.res = ⟨0, false⟩

theorem State.Inv.prologue {s : State} (h : s.Inv) : s.prologue.Cleared :=
  ⟨h.capLegal, h.ibufWf, h.ibufBelow, h.obufWf, h.obufBelow, rfl, ⟨rfl, rfl, rfl, rfl⟩, rfl⟩

theorem State.reset_cleared : State.reset.Cleared :=
  ⟨by decide, rfl, rfl, rfl, rfl, rfl, ⟨rfl, rfl, rfl, rfl⟩, rfl⟩

theorem State.Inv.applyReset {s : State} (h : s.Inv) : s.applyReset.Cleared :=
  ⟨h.capLegal, h.ibufWf, h.ibufBelow, h.obufWf, h.obufBelow, rfl, ⟨rfl, rfl, rfl, rfl⟩, rfl⟩

theorem State.Inv.applyResetDuringCommand {s : State} (h : s.Inv) : s.applyResetDuringCommand.Cleared :=
  ⟨h.capLegal, h.ibufWf, h.ibufBelow, rfl, rfl, rfl, ⟨rfl, rfl, rfl, rfl⟩, rfl⟩

theorem State.Inv.applyPowerOn {s : State} (h : s.Inv) : s.applyPowerOn.Cleared :=
  ⟨h.capLegal, rfl, rfl, rfl, rfl, rfl, ⟨rfl, rfl, rfl, rfl⟩, rfl⟩

/-! ### The outcomes of a command, each from a cleared state -/

/-- An empty result with a record that R42 items 2 to 4 allow. -/
theorem State.Cleared.inv_of_record {s : State} (h : s.Cleared) (k : Kind) (elen emult : Word) (echar : CharCell)
    (epos : Word)
    (lengthRecord : k = .invalidLength → (emult = 4 ∨ emult = 5) ∧ elen.toNat % emult.toNat ≠ 0)
    (noLengthRecord : k ≠ .invalidLength → elen = 0 ∧ emult = 0)
    (charRecord : k = .invalidCharacter → valueOf echar = none ∧ 1 ≤ epos.toNat ∧ epos.toNat ≤ s.config.cap)
    (noCharRecord : k ≠ .invalidCharacter → echar = 0 ∧ epos = 0) :
    State.Inv { s with kind := k, elen := elen, emult := emult, echar := echar, epos := epos } where
  capLegal := h.capLegal
  ibufWf := h.ibufWf
  ibufBelow := h.ibufBelow
  obufWf := h.obufWf
  obufBelow := h.obufBelow
  readable j hj := by simp [h.olen] at hj
  failEmpty _ := h.olen
  lengthRecord := lengthRecord
  noLengthRecord := noLengthRecord
  charRecord := charRecord
  noCharRecord := noCharRecord
  olenBound := by simp [h.olen]
  olenGroups := by simp [h.olen]
  foundClean hf := by simp [h.res] at hf

/-- A result with no record, which R35 and R42 items 5 and 6 allow. -/
theorem State.Cleared.inv_of_result {s : State} (h : s.Cleared) (olen : Word) (res : Res)
    (readable : ∀ j < olen.toNat, (Memory.read s.obuf j).isSome)
    (olenBound : olen.toNat ≤ s.config.obufCells) (olenGroups : olen.toNat % 5 = 0 ∨ olen.toNat % 4 = 0)
    (foundClean : res.found = true → olen = 0) :
    State.Inv { s with kind := .ok, olen := olen, res := res } where
  capLegal := h.capLegal
  ibufWf := h.ibufWf
  ibufBelow := h.ibufBelow
  obufWf := h.obufWf
  obufBelow := h.obufBelow
  readable := readable
  failEmpty hk := absurd rfl hk
  lengthRecord hk := nomatch hk
  noLengthRecord _ := ⟨h.noRecord.elen, h.noRecord.emult⟩
  charRecord hk := nomatch hk
  noCharRecord _ := ⟨h.noRecord.echar, h.noRecord.epos⟩
  olenBound := olenBound
  olenGroups := olenGroups
  foundClean hf := ⟨rfl, foundClean hf⟩

theorem State.Cleared.raise_refused {s : State} (h : s.Cleared) : (s.raise .refused).Inv :=
  h.inv_of_record .refused _ _ _ _ (nomatch ·) (fun _ => ⟨h.noRecord.elen, h.noRecord.emult⟩) (nomatch ·)
    fun _ => ⟨h.noRecord.echar, h.noRecord.epos⟩

theorem State.Cleared.raise_length {s : State} (h : s.Cleared) {m : Word} (hm : m = 4 ∨ m = 5)
    (hlen : s.len.toNat % m.toNat ≠ 0) : (s.raise (.invalidLength m)).Inv :=
  h.inv_of_record .invalidLength _ _ _ _ (fun _ => ⟨hm, hlen⟩) (absurd rfl) (nomatch ·)
    fun _ => ⟨h.noRecord.echar, h.noRecord.epos⟩

theorem State.Cleared.raise_character {s : State} (h : s.Cleared) {c : CharCell} {p : Word} (hc : valueOf c = none)
    (hp : 1 ≤ p.toNat ∧ p.toNat ≤ s.config.cap) : (s.raise (.invalidCharacter c p)).Inv :=
  h.inv_of_record .invalidCharacter _ _ _ _ (nomatch ·) (fun _ => ⟨h.noRecord.elen, h.noRecord.emult⟩)
    (fun _ => ⟨hc, hp⟩) (absurd rfl)

theorem State.Cleared.finishTable {s : State} (h : s.Cleared) (r : Res) : (s.finishTable r).Inv :=
  h.inv_of_result s.olen r (by simp [h.olen]) (by simp [h.olen]) (by simp [h.olen]) fun _ => h.olen

theorem State.Cleared.finish {s : State} (h : s.Cleared) (olen : Word)
    (readable : ∀ j < olen.toNat, (Memory.read s.obuf j).isSome)
    (olenBound : olen.toNat ≤ s.config.obufCells) (olenGroups : olen.toNat % 5 = 0 ∨ olen.toNat % 4 = 0) :
    (s.finish olen).Inv :=
  h.inv_of_result olen s.res readable olenBound olenGroups fun hf => by simp [h.res] at hf

/-- A cleared state meets the invariant when no command has failed in it. -/
theorem State.Cleared.inv {s : State} (h : s.Cleared) (hk : s.kind = .ok) : s.Inv := by
  have := h.inv_of_result s.olen s.res (by simp [h.olen]) (by simp [h.olen]) (by simp [h.olen]) fun _ => h.olen
  rwa [← hk] at this

/-! ### What keeps the invariant field by field -/

/-- Operands, working registers and the host's stream are no part of the invariant. -/
theorem State.Inv.setOperands {s : State} (h : s.Inv) (off len arg : Word) (work : Work) (input : List HostEvent)
    (output : List Response) :
    State.Inv { s with off := off, len := len, arg := arg, work := work, input := input, output := output } :=
  ⟨h.capLegal, h.ibufWf, h.ibufBelow, h.obufWf, h.obufBelow, h.readable, h.failEmpty, h.lengthRecord,
    h.noLengthRecord, h.charRecord, h.noCharRecord, h.olenBound, h.olenGroups, h.foundClean⟩

theorem State.Inv.respond {s : State} (h : s.Inv) (r : Response) : (s.respond r).Inv :=
  h.setOperands _ _ _ _ _ _

theorem State.Inv.setInput {s : State} (h : s.Inv) (rest : List HostEvent) : State.Inv { s with input := rest } :=
  h.setOperands _ _ _ _ _ _

theorem State.Inv.writeIbuf {s : State} (h : s.Inv) {i : Nat} (hi : i < s.config.cap) (v : CharCell) :
    (s.writeIbuf i v).Inv :=
  ⟨h.capLegal, Memory.wf_write _ _ _ h.ibufWf, Memory.below_write _ _ _ _ hi h.ibufBelow, h.obufWf, h.obufBelow,
    h.readable, h.failEmpty, h.lengthRecord, h.noLengthRecord, h.charRecord, h.noCharRecord, h.olenBound,
    h.olenGroups, h.foundClean⟩

/-! ### Scans -/

/-- A scan that wrote `OBUF` inside its bound leaves a cleared state cleared. -/
theorem State.Cleared.of_onlyOutputAndWork {s t : State} (h : s.Cleared) (hf : OnlyOutputAndWork s t)
    (hwf : Memory.wf t.obuf) (hbelow : Memory.below t.obuf s.config.obufCells) : t.Cleared := by
  obtain ⟨o, w, rfl⟩ := hf
  exact ⟨h.capLegal, h.ibufWf, h.ibufBelow, hwf, hbelow, h.olen, ⟨h.noRecord.elen, h.noRecord.emult, h.noRecord.echar,
    h.noRecord.epos⟩, h.res⟩

/-- The groups of a view that fits have their characters inside `OBUF` (R6, R35). -/
theorem encGroups_le_obufCells {c : Config} (hc : c.Legal) {k : Nat} (hk : k ≤ c.cap) :
    5 * (k / 4) ≤ c.obufCells := by
  have := hc.1
  unfold Config.obufCells
  omega

/-- The groups of a view that fits have their bytes inside `OBUF` (R6, R35). -/
theorem decGroups_le_obufCells {c : Config} {k : Nat} (hk : k ≤ c.cap) : 4 * (k / 5) ≤ c.obufCells := by
  unfold Config.obufCells
  omega

theorem EncoderAt.cleared {s t : State} {k : Nat} (h : EncoderAt s k t) (hs : s.Cleared) (hk : k ≤ s.config.cap) :
    t.Cleared :=
  hs.of_onlyOutputAndWork h.frame (h.wf hs.obufWf) (h.below _ (encGroups_le_obufCells hs.capLegal hk) hs.obufBelow)

theorem DecoderAt.cleared {s t : State} {k : Nat} (h : DecoderAt s k t) (hs : s.Cleared) (hk : k ≤ s.config.cap) :
    t.Cleared :=
  hs.of_onlyOutputAndWork h.frame (h.wf hs.obufWf) (h.below _ (decGroups_le_obufCells hk) hs.obufBelow)

/-! ### Commands, writes, steps -/

theorem encCommand_inv {s : State} (h : s.Inv) : (encCommand s).Inv := by
  rcases encCommand_cases s h.capLegal with ⟨_, e⟩ | ⟨_, h4, e⟩ | ⟨hfit, _, t, hat, e⟩ <;> rw [e]
  · exact h.prologue.raise_refused
  · exact h.prologue.raise_length (.inl rfl) h4
  · have hlen : s.len.toNat ≤ s.config.cap := by omega
    have holen := encOlen_toNat (len_lt_of_fits s h.capLegal hfit)
    refine (hat.cleared h.prologue hlen).finish _ (fun j hj => ?_) ?_ ?_
    · rw [holen] at hj
      rw [hat.read hj]
      rfl
    · rw [holen, hat.frame.config, Nat.mul_comm]
      exact encGroups_le_obufCells h.capLegal hlen
    · rw [holen]
      omega

theorem decCommand_inv {s : State} (h : s.Inv) : (decCommand s).Inv := by
  rcases decCommand_cases s h.capLegal with
    ⟨_, e⟩ | ⟨_, h5, e⟩ | ⟨hfit, _, _, t, hat, e⟩ | ⟨hfit, _, p, hp, hbad, _, t, hat, e⟩ <;> rw [e]
  · exact h.prologue.raise_refused
  · exact h.prologue.raise_length (.inr rfl) h5
  · have hlen : s.len.toNat ≤ s.config.cap := by omega
    have holen := decOlen_toNat (len_lt_of_fits s h.capLegal hfit)
    refine (hat.cleared h.prologue hlen).finish _ (fun j hj => ?_) ?_ ?_
    · rw [holen] at hj
      rw [hat.read hj]
      rfl
    · rw [holen, hat.frame.config, Nat.mul_comm]
      exact decGroups_le_obufCells hlen
    · rw [holen]
      omega
  · have hcap : p + 1 ≤ s.config.cap := by omega
    refine ((hat.cleared h.prologue (Nat.le_of_succ_le hcap)).raise_character hbad ?_).setOperands _ _ _ _ _ _
    rw [hat.epos_toNat, hat.frame.config]
    exact ⟨Nat.succ_pos p, hcap⟩

theorem chrofCommand_inv {s : State} (h : s.Inv) : (chrofCommand s).Inv := by
  rw [chrofCommand_eq]
  split
  · exact h.prologue.raise_refused
  · exact h.prologue.finishTable _

theorem valofCommand_inv {s : State} (h : s.Inv) : (valofCommand s).Inv := by
  rw [valofCommand_eq]
  exact h.prologue.finishTable _

theorem commandOf_inv {s : State} (h : s.Inv) (d : Word) : (commandOf d s).Inv := by
  rcases commandOf_cases d s with e | e | e | e | e <;> rw [e]
  · exact encCommand_inv h
  · exact decCommand_inv h
  · exact chrofCommand_inv h
  · exact valofCommand_inv h
  · exact h.prologue.raise_refused

theorem writeBus_inv {s : State} (h : s.Inv) (a : BusAddr) (d : Word) : (s.writeBus a d).Inv := by
  rcases writeBus_cases s a d with e | e | ⟨off, len, arg, e⟩ | ⟨i, _, hi, _, e⟩ <;> rw [e]
  · exact (commandOf_inv h d).respond _
  · exact h.respond _
  · exact h.setOperands _ _ _ _ _ _
  · exact (h.writeIbuf hi _).respond _

theorem exec_decode_inv {s t : State} (h : s.Inv) (w : BusWord) (ht : exec (decode w) s = .next t) : t.Inv := by
  rcases decode_cases w s with ⟨_, e⟩ | ⟨_, e⟩ <;> obtain rfl := next_inj.1 (e.symm.trans ht)
  · exact h.respond _
  · exact writeBus_inv h _ _

/-- Settles O15: every thing a step can do keeps the invariant, a command because each of its outcomes is one that a
cleared state allows. -/
theorem stepKeepsTheInvariant : Obligations.StepKeepsTheInvariant := by
  intro s t h hstep
  rcases step_cases s with
    ⟨_, e⟩ | ⟨w, rest, _, e⟩ | ⟨rest, _, e⟩ | ⟨_, rest, _, e⟩ | ⟨rest, _, e⟩ <;> rw [e] at hstep
  · obtain rfl := next_inj.1 hstep
    exact h
  · exact exec_decode_inv (h.setInput rest) w hstep
  all_goals obtain rfl := next_inj.1 hstep
  · exact (h.setInput rest).applyReset.inv rfl
  · exact (h.setInput rest).applyResetDuringCommand.inv rfl
  · exact (h.setInput rest).applyPowerOn.inv rfl

end Sys2Proof.Machine
end

section
/-! SUPPORT. What changes a cell of `IBUF` (R34, R163). -/

namespace Sys2Proof.Machine

/-- A write changes what an `IBUF` cell holds only if it is an accepted write to that cell. -/
theorem writeBus_ibufCell_ne {s : State} {a : BusAddr} {d : Word} {k : Nat}
    (h : (s.writeBus a d).ibufCell k ≠ s.ibufCell k) :
    a.toNat = 0x10000 + k ∧ k < s.config.cap ∧ d.toNat < 2 ^ 21 := by
  rcases writeBus_cases s a d with e | e | ⟨_, _, _, e⟩ | ⟨i, ha, hi, hd, e⟩ <;> rw [e] at h
  · exact absurd ((commandOf_keeps d s).1.cells k) h
  · exact absurd rfl h
  · exact absurd rfl h
  · have hcell : ((s.writeIbuf i (cellOf d)).respond .ack).ibufCell k = if k = i then cellOf d else s.ibufCell k :=
      State.ibufCell_writeIbuf s i k (cellOf d)
    by_cases hk : k = i
    · subst hk
      exact ⟨ha, hi, hd⟩
    · exact absurd (hcell.trans (if_neg hk)) h

/-- Settles O26: of the five things a step can do, a read, a command and both resets keep every cell of `IBUF`. -/
theorem onlyItsWriteChangesAnIbufCell : Obligations.OnlyItsWriteChangesAnIbufCell := by
  intro s t k hstep hne
  rcases step_cases s with
    ⟨_, e⟩ | ⟨w, rest, hin, e⟩ | ⟨_, _, e⟩ | ⟨_, _, _, e⟩ | ⟨rest, hin, _⟩
  · obtain rfl := next_inj.1 (e.symm.trans hstep)
    exact absurd rfl hne
  · right
    rcases decode_cases w { s with input := rest } with ⟨_, e'⟩ | ⟨hw, e'⟩ <;>
      obtain rfl := next_inj.1 ((e.trans e').symm.trans hstep)
    · exact absurd rfl hne
    · obtain ⟨ha, hk, hd⟩ := writeBus_ibufCell_ne hne
      exact ⟨busAddr w, busData w, rest, by rw [hin, ← hw, busWord_fields], ha, hk, hd⟩
  · obtain rfl := next_inj.1 (e.symm.trans hstep)
    exact absurd rfl hne
  · obtain rfl := next_inj.1 (e.symm.trans hstep)
    exact absurd rfl hne
  · exact .inl ⟨rest, hin⟩

end Sys2Proof.Machine
end

section
/-! SUPPORT. The outcome of a command is a function of its operands (R39, R59): one lemma per command over two states,
whatever else they hold. -/

namespace Sys2Proof.Machine

/-! ### Equal views -/

theorem State.SameView.viewByte {s t : State} (h : s.SameView t) {k : Nat} (hk : k < s.len.toNat) :
    s.viewByte k = t.viewByte k := by
  rw [State.viewByte, State.viewByte, h.2 k hk]

theorem State.SameView.viewDigit {s t : State} (h : s.SameView t) {k : Nat} (hk : k < s.len.toNat) :
    s.viewDigit k = t.viewDigit k := by
  rw [State.viewDigit, State.viewDigit, h.2 k hk]

theorem State.SameView.encValue {s t : State} (h : s.SameView t) {g : Nat} (hg : g < s.len.toNat / 4) :
    s.encValue g = t.encValue g := by
  rw [State.encValue, State.encValue, h.viewByte (by omega), h.viewByte (by omega), h.viewByte (by omega),
    h.viewByte (by omega)]

theorem State.SameView.decValue {s t : State} (h : s.SameView t) {g : Nat} (hg : g < s.len.toNat / 5) :
    s.decValue g = t.decValue g := by
  rw [State.decValue, State.decValue, h.viewDigit (by omega), h.viewDigit (by omega), h.viewDigit (by omega),
    h.viewDigit (by omega), h.viewDigit (by omega)]

/-! ### Equal outcomes -/

theorem State.SameOutcome.respond {s t : State} (h : s.SameOutcome t) (r : Response) :
    (s.respond r).SameOutcome (t.respond r) :=
  ⟨h.kind, h.olen, h.elen, h.emult, h.echar, h.epos, h.res, h.cells⟩

theorem sameOutcome_refused (s t : State) :
    (s.prologue.raise .refused).SameOutcome (t.prologue.raise .refused) :=
  ⟨rfl, rfl, rfl, rfl, rfl, rfl, rfl, fun j hj => absurd hj (Nat.not_lt_zero j)⟩

theorem sameOutcome_length {s t : State} (h : s.len = t.len) (m : Word) :
    (s.prologue.raise (.invalidLength m)).SameOutcome (t.prologue.raise (.invalidLength m)) :=
  ⟨rfl, rfl, h, rfl, rfl, rfl, rfl, fun j hj => absurd hj (Nat.not_lt_zero j)⟩

theorem sameOutcome_finishTable (s t : State) (r : Res) :
    (s.prologue.finishTable r).SameOutcome (t.prologue.finishTable r) :=
  ⟨rfl, rfl, rfl, rfl, rfl, rfl, rfl, fun j hj => absurd hj (Nat.not_lt_zero j)⟩

/-- Two successful scans whose readable cells hold the same. -/
theorem sameOutcome_finish {s t a b : State} (ha : OnlyOutputAndWork s.prologue a)
    (hb : OnlyOutputAndWork t.prologue b) (n : Word) (h : ∀ j < n.toNat, a.obufCell j = b.obufCell j) :
    (a.finish n).SameOutcome (b.finish n) := by
  obtain ⟨_, _, rfl⟩ := ha
  obtain ⟨_, _, rfl⟩ := hb
  exact ⟨rfl, rfl, rfl, rfl, rfl, rfl, rfl, h⟩

/-- Two scans stopped at the same place by the same character. -/
theorem sameOutcome_latchInvalid {s t a b : State} {p : Nat} (ha : DecoderAt s.prologue p a)
    (hb : DecoderAt t.prologue p b) (c : CharCell) : (latchInvalid a c).SameOutcome (latchInvalid b c) := by
  have hpos : a.work.pos = b.work.pos := BitVec.eq_of_toNat_eq (ha.pos.trans hb.pos.symm)
  obtain ⟨_, _, rfl⟩ := ha.frame
  obtain ⟨_, _, rfl⟩ := hb.frame
  exact ⟨rfl, rfl, rfl, rfl, rfl, congrArg (fun p : BitVec 17 => BitVec.ofNat 32 (p.toNat + 1)) hpos, rfl,
    fun j hj => absurd hj (Nat.not_lt_zero j)⟩

theorem State.obufCell_of_read {s : State} {j : Nat} {v : Byte} (h : Memory.read s.obuf j = some v) :
    s.obufCell j = v := by
  rw [State.obufCell, h]
  rfl

/-! ### Commands -/

/-- `ENC` on two views that hold the same and both fit, or both do not. -/
theorem encCommand_sameOutcome {s t : State} (hs : s.config.Legal) (hv : s.SameView t)
    (hfit : s.off.toNat + s.len.toNat ≤ s.config.cap ↔ t.off.toNat + t.len.toNat ≤ t.config.cap) :
    (encCommand s).SameOutcome (encCommand t) := by
  have hlen := congrArg BitVec.toNat hv.1
  by_cases hf : s.off.toNat + s.len.toNat ≤ s.config.cap
  · by_cases h4 : s.len.toNat % 4 = 0
    · have hn := len_lt_of_fits s hs hf
      have has := encodeScan_at s.prologue s.len.toNat hn
      have hat := encodeScan_at t.prologue s.len.toNat hn
      rw [encCommand_scan s hf h4, encCommand_scan t (hfit.1 hf) (hlen ▸ h4), ← hlen]
      refine sameOutcome_finish has.frame hat.frame _ fun j hj => ?_
      rw [encOlen_toNat hn] at hj
      have hvalue : s.prologue.encValue (j / 5) = t.prologue.encValue (j / 5) :=
        State.SameView.encValue (s := s) hv (by omega)
      rw [State.obufCell_of_read (has.read hj), State.obufCell_of_read (hat.read hj), State.encChar, hvalue,
        State.encChar]
    · rw [encCommand_length s hf h4, encCommand_length t (hfit.1 hf) (hlen ▸ h4)]
      exact sameOutcome_length hv.1 4
  · rw [encCommand_refused s (Nat.lt_of_not_le hf), encCommand_refused t (Nat.lt_of_not_le (mt hfit.2 hf))]
    exact sameOutcome_refused s t

/-- `DEC` on two views that hold the same and both fit, or both do not. -/
theorem decCommand_sameOutcome {s t : State} (hs : s.config.Legal) (ht : t.config.Legal) (hv : s.SameView t)
    (hfit : s.off.toNat + s.len.toNat ≤ s.config.cap ↔ t.off.toNat + t.len.toNat ≤ t.config.cap) :
    (decCommand s).SameOutcome (decCommand t) := by
  have hlen := congrArg BitVec.toNat hv.1
  by_cases hf : s.off.toNat + s.len.toNat ≤ s.config.cap
  · by_cases h5 : s.len.toNat % 5 = 0
    · have hft := hfit.1 hf
      have ht5 : t.len.toNat % 5 = 0 := hlen ▸ h5
      rcases first_invalid s with hall | ⟨p, hp, hbad, hbefore⟩
      · have hallt : t.ViewInAlphabet := fun k hk => hv.2 k (hlen ▸ hk) ▸ hall k (hlen ▸ hk)
        obtain ⟨a, ha, ea⟩ := decCommand_ok s hs hf h5 hall
        obtain ⟨b, hb, eb⟩ := decCommand_ok t ht hft ht5 hallt
        rw [← hlen] at hb eb
        rw [ea, eb]
        refine sameOutcome_finish ha.frame hb.frame _ fun j hj => ?_
        rw [decOlen_toNat (len_lt_of_fits s hs hf)] at hj
        have hvalue : s.prologue.decValue (j / 4) = t.prologue.decValue (j / 4) :=
          State.SameView.decValue (s := s) hv (by omega)
        rw [State.obufCell_of_read (ha.read hj), State.obufCell_of_read (hb.read hj), State.decByte, hvalue,
          State.decByte]
      · have hbadt : valueOf (t.viewChar p) = none := hv.2 p hp ▸ hbad
        have hbeforet : ∀ k < p, (valueOf (t.viewChar k)).isSome = true := fun k hk =>
          hv.2 k (Nat.lt_trans hk hp) ▸ hbefore k hk
        obtain ⟨a, ha, ea⟩ := decCommand_invalid s p hs hf h5 hp hbefore hbad
        obtain ⟨b, hb, eb⟩ := decCommand_invalid t p ht hft ht5 (hlen ▸ hp) hbeforet hbadt
        rw [ea, eb, hv.2 p hp]
        exact sameOutcome_latchInvalid ha hb _
    · rw [decCommand_length s hf h5, decCommand_length t (hfit.1 hf) (hlen ▸ h5)]
      exact sameOutcome_length hv.1 5
  · rw [decCommand_refused s (Nat.lt_of_not_le hf), decCommand_refused t (Nat.lt_of_not_le (mt hfit.2 hf))]
    exact sameOutcome_refused s t

theorem chrofCommand_sameOutcome {s t : State} (h : s.arg = t.arg) :
    (chrofCommand s).SameOutcome (chrofCommand t) := by
  rw [chrofCommand_eq, chrofCommand_eq, h]
  split
  · exact sameOutcome_refused s t
  · exact sameOutcome_finishTable s t _

theorem valofCommand_sameOutcome {s t : State} (h : s.arg = t.arg) :
    (valofCommand s).SameOutcome (valofCommand t) := by
  rw [valofCommand_eq, valofCommand_eq, h]
  exact sameOutcome_finishTable s t _

/-- Settles O28, command by command. -/
theorem resultDependsOnlyOnTheOperands : Obligations.ResultDependsOnlyOnTheOperands := by
  intro s t i hi hc hconfig hoff harg hv
  have hfit : s.off.toNat + s.len.toNat ≤ s.config.cap ↔ t.off.toNat + t.len.toNat ≤ t.config.cap := by
    rw [hoff, hv.1, hconfig]
  rcases hi with rfl | rfl | rfl | rfl
  · exact ⟨_, _, rfl, rfl, (encCommand_sameOutcome hc hv hfit).respond .ack⟩
  · exact ⟨_, _, rfl, rfl, (decCommand_sameOutcome hc (hconfig ▸ hc) hv hfit).respond .ack⟩
  · exact ⟨_, _, rfl, rfl, (chrofCommand_sameOutcome harg).respond .ack⟩
  · exact ⟨_, _, rfl, rfl, (valofCommand_sameOutcome harg).respond .ack⟩

end Sys2Proof.Machine
end

section
/-! SUPPORT. The bound on `EPOS` (R31; R42 item 3, log 13). -/

namespace Sys2Proof.Machine

theorem State.eposWithin_of_kind {s : State} {n : Word} (h : s.kind ≠ .invalidCharacter) : s.EposWithin n :=
  fun hk => absurd hk h

/-- `DEC` reports a position in the view it ran on (R31, R186). -/
theorem decCommand_eposWithin {s : State} (hc : s.config.Legal) : (decCommand s).EposWithin s.len := by
  rcases decCommand_cases s hc with
    ⟨_, e⟩ | ⟨_, _, e⟩ | ⟨_, _, _, t, _, e⟩ | ⟨_, _, p, hp, _, _, t, hat, e⟩ <;> rw [e]
  · exact State.eposWithin_of_kind nofun
  · exact State.eposWithin_of_kind nofun
  · exact State.eposWithin_of_kind nofun
  · intro _
    have hepos : (latchInvalid t (s.viewChar p)).epos.toNat = p + 1 := hat.epos_toNat
    rw [hepos]
    exact ⟨Nat.succ_pos p, hp⟩

/-- A write of any word to `CMD` leaves the bound, by the length it ran with. -/
theorem commandOf_eposWithin {s : State} (hc : s.config.Legal) (d : Word) : (commandOf d s).EposWithin s.len := by
  rcases commandOf_cases d s with e | e | e | e | e <;> rw [e]
  · rcases encCommand_cases s hc with ⟨_, e⟩ | ⟨_, _, e⟩ | ⟨_, _, t, _, e⟩ <;> rw [e] <;>
      exact State.eposWithin_of_kind nofun
  · exact decCommand_eposWithin hc
  · rw [chrofCommand_eq]
    split <;> exact State.eposWithin_of_kind nofun
  · rw [valofCommand_eq]
    exact State.eposWithin_of_kind nofun
  · exact State.eposWithin_of_kind nofun

/-- The bound a command leaves, by what `LEN` holds after it: no command writes `LEN`. -/
theorem commandOf_eposWithinLen {s : State} (hc : s.config.Legal) (d : Word) : (commandOf d s).EposWithinLen := by
  rw [State.EposWithinLen, (commandOf_keeps d s).1.len]
  exact commandOf_eposWithin hc d

/-- What a step that is no write to `CMD` keeps: the character record, and `LEN` unless that is what the step wrote. -/
structure KeepsRecord (s t : State) : Prop where
  kind : t.kind = s.kind
  epos : t.epos = s.epos
  echar : t.echar = s.echar
  len : t.len = s.len ∨ ∃ d rest, s.input = .transaction (busWord true 0x00003 d) :: rest ∧ t.len = d

theorem KeepsRecord.eposWithin {s t : State} (h : KeepsRecord s t) {n : Word} (hs : s.EposWithin n) :
    t.EposWithin n := by
  rw [State.EposWithin, h.kind, h.epos]
  exact hs

/-- A step that is no write to `CMD` is a reset, or leaves the record as it was (R161, R217). -/
theorem step_keepsRecord {s t : State} (hstep : step s = .next t)
    (hno : ∀ d rest, s.input ≠ .transaction (busWord true 0 d) :: rest) : t.kind = .ok ∨ KeepsRecord s t := by
  rcases step_cases s with
    ⟨_, e⟩ | ⟨w, rest, hin, e⟩ | ⟨_, _, e⟩ | ⟨_, _, _, e⟩ | ⟨_, _, e⟩
  · obtain rfl := next_inj.1 (e.symm.trans hstep)
    exact .inr ⟨rfl, rfl, rfl, .inl rfl⟩
  · right
    rcases decode_cases w { s with input := rest } with ⟨_, e'⟩ | ⟨hw, e'⟩ <;>
      obtain rfl := next_inj.1 ((e.trans e').symm.trans hstep)
    · exact ⟨rfl, rfl, rfl, .inl rfl⟩
    · have hin' : s.input = .transaction (busWord true (busAddr w) (busData w)) :: rest := by
        rw [hin, ← hw, busWord_fields]
      have ha : busAddr w ≠ 0 := fun ha => hno (busData w) rest (ha ▸ hin')
      obtain ⟨hkind, hechar, hepos⟩ := writeBus_keeps_record { s with input := rest } _ (busData w) ha
      refine ⟨hkind, hepos, hechar, ?_⟩
      rw [writeBus_len]
      split
      · next h3 => exact .inr ⟨busData w, rest, h3 ▸ hin', rfl⟩
      · exact .inl rfl
  all_goals
    obtain rfl := next_inj.1 (e.symm.trans hstep)
    exact .inl rfl

/-- The bound by what `LEN` holds now survives every step but a write to `LEN` below `EPOS`. -/
theorem step_eposWithinLen {s t : State} (hc : s.config.Legal) (hs : s.EposWithinLen) (hstep : step s = .next t)
    (hlen : ∀ d rest, s.input = .transaction (busWord true 0x00003 d) :: rest → s.kind = .invalidCharacter →
      s.epos.toNat ≤ d.toNat) : t.EposWithinLen := by
  by_cases hcmd : ∃ d rest, s.input = .transaction (busWord true 0 d) :: rest
  · obtain ⟨d, rest, hin⟩ := hcmd
    obtain rfl := next_inj.1 ((step_commandWrite hin).symm.trans hstep)
    exact commandOf_eposWithinLen (s := { s with input := rest }) hc d
  · rcases step_keepsRecord hstep fun d rest hin => hcmd ⟨d, rest, hin⟩ with hok | hkeep
    · exact State.eposWithin_of_kind (by simp [hok])
    · intro hk
      have hks : s.kind = .invalidCharacter := hkeep.kind ▸ hk
      obtain ⟨hlow, hhigh⟩ := hs hks
      rw [hkeep.epos]
      rcases hkeep.len with e | ⟨d, rest, hin, e⟩ <;> rw [e]
      · exact ⟨hlow, hhigh⟩
      · exact ⟨hlow, hlen d rest hin hks⟩

/-- Settles O60: a `CMD` write leaves the bound because `DEC` does, and every other step leaves the record or resets. -/
theorem eposStaysWithinLen : Obligations.EposStaysWithinLen := by
  refine ⟨fun s t hc hstep => ⟨fun d rest hin => ?_, fun hno => ?_⟩, fun s t i hc hi hexec => ?_,
    fun s t hinv hs hstep hlen => step_eposWithinLen hinv.capLegal hs hstep hlen⟩
  · obtain rfl := next_inj.1 ((step_commandWrite hin).symm.trans hstep)
    exact ⟨(commandOf_keeps d { s with input := rest }).1.len,
      commandOf_eposWithin (s := { s with input := rest }) hc d⟩
  · rcases step_keepsRecord hstep hno with hok | hkeep
    · have hk : t.kind ≠ .invalidCharacter := by simp [hok]
      exact ⟨fun h => absurd h hk, fun n _ => State.eposWithin_of_kind hk⟩
    · exact ⟨fun hk => ⟨hkeep.kind ▸ hk, hkeep.epos, hkeep.echar⟩, fun n => hkeep.eposWithin⟩
  · obtain ⟨d, e⟩ := exec_command hi s
    obtain rfl := next_inj.1 (e.symm.trans hexec)
    exact commandOf_eposWithinLen hc d

end Sys2Proof.Machine
end

section
/-! SUPPORT. The state after reset, what its registers read as, and the write that breaks the bound by `LEN`
(R41, R26, R30, R33, log 13). -/

namespace Sys2Proof.Machine

/-- With `OLEN = 0` no address of the `OBUF` window answers (R160). -/
theorem readBus_obuf_of_olen_zero {s : State} (h : s.olen = 0) {a : BusAddr} (ha : 0x20000 ≤ a.toNat) :
    s.readBus a = .buserr := by
  rw [State.readBus, locate_obuf a ha]
  simp [h]

/-- Settles O13, address by address. -/
theorem resetRegistersReadZero : Obligations.ResetRegistersReadZero := by
  refine ⟨rfl, rfl, rfl, rfl, ⟨rfl, rfl, rfl, rfl⟩, rfl, rfl, fun a hlow hhigh => ?_,
    fun a ha => readBus_obuf_of_olen_zero rfl ha⟩
  rcases addr_cases a with rfl | rfl | rfl | rfl | rfl | rfl | rfl | rfl | rfl | rfl | rfl | hr | hr | hr
  · exact absurd hlow (by decide)
  iterate 10 rfl
  all_goals omega

theorem State.reset_inv : State.reset.Inv := State.reset_cleared.inv rfl

/-- Settles O14: reset leaves a cleared state with no outcome to record. -/
theorem resetMeetsTheInvariant : Obligations.ResetMeetsTheInvariant :=
  ⟨State.reset_inv, State.eposWithin_of_kind nofun⟩

/-- What `DEC` of five characters leaves when it meets `_` at position 2. -/
def recordAtTwo : State := State.raise { State.reset with len := 5 } (.invalidCharacter 0x5F 2)

theorem recordAtTwo_inv : recordAtTwo.Inv :=
  (State.reset_cleared.raise_character (by decide) (by decide)).setOperands _ 5 _ _ _ _

/-- Settles O16: with a record at position 2, 0 is written to `LEN`. -/
theorem lenWriteCanBreakTheEposBound : Obligations.LenWriteCanBreakTheEposBound :=
  ⟨recordAtTwo, State.respond { recordAtTwo with len := 0 } .ack, recordAtTwo_inv, rfl, by decide, rfl, rfl, by decide⟩

theorem State.statusWord_toNat (s : State) : s.statusWord.toNat = s.kind.code.toNat := by
  rw [State.statusWord, BitVec.toNat_setWidth_of_le (by decide)]

theorem State.echarWord_toNat (s : State) : s.echarWord.toNat = s.echar.toNat := by
  rw [State.echarWord, BitVec.toNat_setWidth_of_le (by decide)]

theorem Res.word_toNat (r : Res) : r.word.toNat = r.value.toNat + (if r.found then 256 else 0) := by
  have hv := r.value.isLt
  have hfound : (BitVec.ofBool r.found ++ (0 : BitVec 1)).toNat = if r.found then 2 else 0 := by
    cases r.found <;> rfl
  rw [Res.word, BitVec.toNat_setWidth_of_le (by decide), BitVec.toNat_append, ← Nat.shiftLeft_add_eq_or_of_lt hv,
    Nat.shiftLeft_eq, hfound]
  split <;> omega

/-- Settles O18: each register's word as a number, `KIND` by its code. -/
theorem registersReadAsTheirFields : Obligations.RegistersReadAsTheirFields := by
  intro s
  rw [s.statusWord_toNat]
  refine ⟨fun h => ?_, fun h => ?_, fun h => ?_, fun h => ?_, s.echarWord_toNat, s.res.word_toNat⟩ <;> rw [h] <;> rfl

end Sys2Proof.Machine
end

section
/-! SUPPORT. One transaction, one answer: what a step does to the host's stream, the parameter and the responses
(R43, R51, R64, R165), and that a read has no effect but its answer (R61). -/

namespace Sys2Proof.Machine

/-- Settles O5, by what a step does with a pending transaction. -/
theorem stepRunsTheDecodedTransaction : Obligations.StepRunsTheDecodedTransaction :=
  fun _ _ _ h => step_transaction h

/-- The responses given before have no influence on what a read answers. -/
theorem State.readBus_respond (s : State) (r : Response) (a : BusAddr) : (s.respond r).readBus a = s.readBus a := rfl

/-- A read is answered with data or `buserr`, never with a write's acknowledgement (R160). -/
theorem State.readBus_shape (s : State) (a : BusAddr) : s.readBus a = .buserr ∨ ∃ d, s.readBus a = .data d := by
  rw [State.readBus]
  cases locate a with
  | cmd | ibuf _ | unmapped => exact .inl rfl
  | status | off | len | olen | elen | emult | echar | epos | arg | res => exact .inr ⟨_, rfl⟩
  | obuf j =>
    by_cases hj : j < s.olen.toNat
    · exact .inr ⟨_, if_pos hj⟩
    · exact .inl (if_neg hj)

/-- Settles O24: the first answer is all a read leaves behind, and no read looks at it. -/
theorem readIsIdempotent : Obligations.ReadIsIdempotent := by
  intro s a
  refine ⟨s.readBus a, rfl, ?_⟩
  rw [exec, execRd, State.readBus_respond]

/-- A write gets one answer, and it leaves the host's stream and `CAP` alone. -/
theorem writeBus_answer (s : State) (a : BusAddr) (d : Word) :
    (s.writeBus a d).input = s.input ∧ (s.writeBus a d).config = s.config ∧
    ((s.writeBus a d).output = .ack :: s.output ∨ (s.writeBus a d).output = .buserr :: s.output) := by
  rcases writeBus_cases s a d with e | e | ⟨_, _, _, e⟩ | ⟨_, _, _, _, e⟩ <;> rw [e]
  · obtain ⟨hkeep, hout⟩ := commandOf_keeps d s
    exact ⟨hkeep.input, hkeep.config, .inl (congrArg (Response.ack :: ·) hout)⟩
  · exact ⟨rfl, rfl, .inr rfl⟩
  · exact ⟨rfl, rfl, .inl rfl⟩
  · exact ⟨rfl, rfl, .inl rfl⟩

/-- Every transaction has a next state, in which it is answered once. -/
theorem exec_decode_answer (w : BusWord) (s : State) :
    ∃ t r, exec (decode w) s = .next t ∧ t.input = s.input ∧ t.config = s.config ∧ t.output = r :: s.output ∧
      (busWe w = false → r = .buserr ∨ ∃ d, r = .data d) ∧ (busWe w = true → r = .ack ∨ r = .buserr) := by
  rcases decode_cases w s with ⟨hw, e⟩ | ⟨hw, e⟩
  · exact ⟨_, s.readBus (busAddr w), e, rfl, rfl, rfl, fun _ => s.readBus_shape _, by simp [hw]⟩
  · obtain ⟨hin, hconfig, hout | hout⟩ := writeBus_answer s (busAddr w) (busData w)
    · exact ⟨_, .ack, e, hin, hconfig, hout, by simp [hw], fun _ => .inl rfl⟩
    · exact ⟨_, .buserr, e, hin, hconfig, hout, by simp [hw], fun _ => .inr rfl⟩

/-- Settles O11: a transaction by its answer's lemma, the idle step and the three kinds of reset by their definitions. -/
theorem everyStepHasANextState : Obligations.EveryStepHasANextState := by
  intro s
  rcases step_cases s with
    ⟨hin, e⟩ | ⟨w, rest, hin, e⟩ | ⟨_, hin, e⟩ | ⟨_, _, hin, e⟩ | ⟨_, hin, e⟩ <;> rw [hin, e]
  · exact ⟨s, rfl, hin, rfl⟩
  · obtain ⟨t, _, e', hinput, hconfig, _⟩ := exec_decode_answer w { s with input := rest }
    exact ⟨t, e', hinput, hconfig⟩
  all_goals exact ⟨_, rfl, rfl, rfl⟩

/-- Settles O12, by the answer to the decoded transaction. -/
theorem everyTransactionIsAnsweredOnce : Obligations.EveryTransactionIsAnsweredOnce := by
  intro s w rest hin
  obtain ⟨t, r, e, _, _, hanswer⟩ := exec_decode_answer w { s with input := rest }
  exact ⟨t, r, (step_transaction hin).trans e, hanswer⟩

/-- Settles O27: a command is the write of its word to `CMD`, and every such write keeps the inputs. -/
theorem commandsNeverChangeTheInput : Obligations.CommandsNeverChangeTheInput := by
  intro s i hi
  obtain ⟨d, e⟩ := exec_command (hi.imp_right (.imp_right (.imp_right .inl))) s
  obtain ⟨hkeep, hout⟩ := commandOf_keeps d s
  exact ⟨_, e, hkeep.respond .ack, congrArg (Response.ack :: ·) hout⟩

end Sys2Proof.Machine
end

section
/-! SUPPORT. What has no influence on an outcome: the place of the view and all else outside it (R59), and the cells
after the first invalid character (R58, R133). -/

namespace Sys2Proof.Machine

/-- Settles O29: both views fit, so the outcomes are those of equal views. -/
theorem equalViewsGiveEqualOutcomes : Obligations.EqualViewsGiveEqualOutcomes := by
  intro s t i hi hs ht hfs hft hv
  have hfit : s.off.toNat + s.len.toNat ≤ s.config.cap ↔ t.off.toNat + t.len.toNat ≤ t.config.cap :=
    iff_of_true hfs hft
  rcases hi with rfl | rfl
  · exact ⟨_, _, rfl, rfl, (encCommand_sameOutcome hs hv hfit).respond .ack⟩
  · exact ⟨_, _, rfl, rfl, (decCommand_sameOutcome hs ht hv hfit).respond .ack⟩

/-- An invalid character at index `p` puts the first invalid one at or before `p`. -/
theorem State.exists_first_invalid {s : State} {p : Nat} (hp : p < s.len.toNat)
    (hbad : valueOf (s.viewChar p) = none) :
    ∃ q ≤ p, valueOf (s.viewChar q) = none ∧ ∀ k < q, (valueOf (s.viewChar k)).isSome = true := by
  rcases first_invalid s with hall | ⟨q, _, hq, hbefore⟩
  · exact absurd (hall p hp) (by simp [hbad])
  · refine ⟨q, Nat.le_of_not_lt fun hpq => ?_, hq, hbefore⟩
    exact absurd (hbefore p hpq) (by simp [hbad])

/-- Settles O54: the two views agree up to the first invalid character, and `DEC` stops there in both. -/
theorem nothingAfterTheFirstInvalidMatters : Obligations.NothingAfterTheFirstInvalidMatters := by
  intro s t p hs ht hfs hft hs5 ht5 hps hpt hsame hbad
  obtain ⟨q, hqp, hq, hbefore⟩ := State.exists_first_invalid hps hbad
  have hsameq : ∀ k ≤ q, s.viewChar k = t.viewChar k := fun k hk => hsame k (hk.trans hqp)
  have hqt : valueOf (t.viewChar q) = none := hsameq q le_rfl ▸ hq
  have hbeforet : ∀ k < q, (valueOf (t.viewChar k)).isSome = true := fun k hk => hsameq k hk.le ▸ hbefore k hk
  obtain ⟨a, ha, ea⟩ := decCommand_invalid s q hs hfs hs5 (hqp.trans_lt hps) hbefore hq
  obtain ⟨b, hb, eb⟩ := decCommand_invalid t q ht hft ht5 (hqp.trans_lt hpt) hbeforet hqt
  have hout : (decCommand s).SameOutcome (decCommand t) := by
    rw [ea, eb, hsameq q le_rfl]
    exact sameOutcome_latchInvalid ha hb _
  exact ⟨_, _, rfl, rfl, hout.respond .ack⟩

end Sys2Proof.Machine
end

section
/-! SUPPORT. What a `CMD` word selects (30_encoding.md R72 to R74). -/

namespace Sys2Proof

/-- Below 16 the word is its `CODE` field, zero-extended (R72). -/
theorem eq_cmdCode_of_lt {w : Word} (h : w.toNat < 16) : w = (cmdCode w).setWidth 32 := by
  have hcode : cmdCode w = BitVec.ofNat 4 w.toNat := (cmdCode_eq w w.toNat h).2 (Nat.mod_eq_of_lt h)
  apply BitVec.eq_of_toNat_eq
  rw [hcode, BitVec.toNat_setWidth, BitVec.toNat_ofNat]
  omega

/-- The six things a `CMD` word can be, by its value on all 32 bits (R72 to R74). -/
theorem decodeCmd_cases (w : Word) :
    (w = 1 ∧ decodeCmd w = .ok .enc) ∨ (w = 2 ∧ decodeCmd w = .ok .dec) ∨ (w = 3 ∧ decodeCmd w = .ok .chrof) ∨
    (w = 4 ∧ decodeCmd w = .ok .valof) ∨ (16 ≤ w.toNat ∧ decodeCmd w = .error .zeroFieldSet) ∨
    ((w.toNat = 0 ∨ 5 ≤ w.toNat ∧ w.toNat ≤ 15) ∧ decodeCmd w = .error .codeUnassigned) := by
  by_cases hz : w.toNat < 16
  · by_cases h1 : w = 1
    · subst h1; exact .inl ⟨rfl, rfl⟩
    by_cases h2 : w = 2
    · subst h2; exact .inr (.inl ⟨rfl, rfl⟩)
    by_cases h3 : w = 3
    · subst h3; exact .inr (.inr (.inl ⟨rfl, rfl⟩))
    by_cases h4 : w = 4
    · subst h4; exact .inr (.inr (.inr (.inl ⟨rfl, rfl⟩)))
    have hcode : ∀ c, w ≠ c.setWidth 32 → cmdCode w ≠ c := fun c hc e => hc (e ▸ eq_cmdCode_of_lt hz)
    refine .inr (.inr (.inr (.inr (.inr ⟨by bv_omega, ?_⟩))))
    rw [decodeCmd, if_neg (not_not.2 ((cmdZero_eq_zero w).2 hz)), if_neg (hcode 1 h1), if_neg (hcode 2 h2),
      if_neg (hcode 3 h3), if_neg (hcode 4 h4)]
  · exact .inr (.inr (.inr (.inr (.inl ⟨Nat.le_of_not_lt hz, if_pos (mt (cmdZero_eq_zero w).1 hz)⟩))))

/-- Settles O4: each of the six values of a `CMD` word meets its own clause and no other. -/
theorem commandWordsMatchOnAllBits : Obligations.CommandWordsMatchOnAllBits := by
  intro w
  rcases decodeCmd_cases w with ⟨rfl, e⟩ | ⟨rfl, e⟩ | ⟨rfl, e⟩ | ⟨rfl, e⟩ | ⟨h, e⟩ | ⟨h, e⟩ <;> rw [e]
  iterate 4 simp
  all_goals
    simp only [Except.error.injEq, reduceCtorEq, false_iff, true_iff]
    omega

/-- A `CMD` word decodes to a command exactly when it is that command's word (R73). -/
theorem decodeCmd_eq_ok_iff {w : Word} {i : Instr} : decodeCmd w = .ok i ↔ cmdWord i = some w := by
  constructor
  · intro h
    rcases decodeCmd_cases w with ⟨rfl, e⟩ | ⟨rfl, e⟩ | ⟨rfl, e⟩ | ⟨rfl, e⟩ | ⟨_, e⟩ | ⟨_, e⟩ <;>
      rw [e] at h <;> cases h <;> rfl
  · intro h
    cases i <;> cases h <;> rfl

theorem isCommandWord_iff (w : Word) : isCommandWord w = true ↔ ∃ i, decodeCmd w = .ok i := by
  rw [isCommandWord, Bool.and_eq_true, decide_eq_true_eq, decide_eq_true_eq]
  rcases decodeCmd_cases w with ⟨rfl, e⟩ | ⟨rfl, e⟩ | ⟨rfl, e⟩ | ⟨rfl, e⟩ | ⟨h, e⟩ | ⟨h, e⟩ <;> rw [e]
  iterate 4 exact iff_of_true (by decide) ⟨_, rfl⟩
  · exact iff_of_false (by omega) (fun ⟨_, h⟩ => nomatch h)
  · exact iff_of_false (by omega) (fun ⟨_, h⟩ => nomatch h)

/-- A word in R74's set selects no command. -/
theorem decodeCmd_error_of_reserved {w : Word} (h : cmdZero w ≠ 0 ∨ cmdCode w = 0 ∨ 5 ≤ (cmdCode w).toNat) :
    ∃ e, decodeCmd w = .error e := by
  rcases decodeCmd_cases w with ⟨rfl, _⟩ | ⟨rfl, _⟩ | ⟨rfl, _⟩ | ⟨rfl, _⟩ | ⟨_, e⟩ | ⟨_, e⟩
  iterate 4 exact absurd h (by decide)
  · exact ⟨_, e⟩
  · exact ⟨_, e⟩

end Sys2Proof

namespace Sys2Proof.Machine

/-- A word that selects no command runs as a reserved one (R74). -/
theorem commandOf_of_error {d : Word} {e : ReservedCmd} (h : decodeCmd d = .error e) (s : State) :
    commandOf d s = reservedCommand s := by
  rw [commandOf, h]

/-- Settles O22: no command is selected, so what runs is the prologue and `raise Refused`. -/
theorem reservedCommandWordIsRefused : Obligations.ReservedCommandWordIsRefused := by
  intro s d hd
  obtain ⟨e, he⟩ := decodeCmd_error_of_reserved hd
  calc exec (.wr 0 d) s
      = .next ((commandOf d s).respond .ack) := rfl
    _ = .next ((reservedCommand s).respond .ack) := by rw [commandOf_of_error he]

end Sys2Proof.Machine
end

section
/-! SUPPORT. Decoding and encoding are inverse (30_encoding.md R70 to R74), and the step that takes a word of the opcode
table (log 1, log 11). -/

namespace Sys2Proof

/-! ### The four commands, each by its `CMD` word -/

theorem encode_of_cmdWord {i : Instr} {d : Word} (h : cmdWord i = some d) : encode i = busWord true 0 d := by
  cases i <;> cases h <;> rfl

theorem wellFormed_of_cmdWord {i : Instr} {d : Word} (h : cmdWord i = some d) : i.wellFormed = true := by
  cases i <;> cases h <;> rfl

theorem decodeWrite_of_cmdWord {i : Instr} {d : Word} (h : cmdWord i = some d) : decodeWrite 0 d = i := by
  rw [decodeWrite, if_pos rfl, decodeCmd_eq_ok_iff.2 h]

/-! ### Writes -/

/-- A write is well-formed unless it carries a command to `CMD` (log 10). -/
theorem wellFormed_wr_iff {a : BusAddr} {d : Word} :
    (Instr.wr a d).wellFormed = true ↔ ¬ (a = 0 ∧ ∃ i, decodeCmd d = .ok i) := by
  rw [Instr.wellFormed, Bool.not_eq_true', ← Bool.not_eq_true, Bool.and_eq_true, beq_iff_eq, isCommandWord_iff]

theorem decodeWrite_of_wellFormed {a : BusAddr} {d : Word} (h : (Instr.wr a d).wellFormed = true) :
    decodeWrite a d = .wr a d := by
  rw [decodeWrite]
  by_cases ha : a = 0
  · rw [if_pos ha]
    cases hd : decodeCmd d with
    | ok i => exact absurd ⟨ha, i, hd⟩ (wellFormed_wr_iff.1 h)
    | error _ => rfl
  · exact if_neg ha

/-- A write either is well-formed and decodes to itself, or carries a command's word to address 0 and decodes to that
command (R70, R74). -/
theorem decodeWrite_cases (a : BusAddr) (d : Word) :
    ((Instr.wr a d).wellFormed = true ∧ decodeWrite a d = .wr a d) ∨
    (a = 0 ∧ cmdWord (decodeWrite a d) = some d) := by
  by_cases h : (Instr.wr a d).wellFormed = true
  · exact .inl ⟨h, decodeWrite_of_wellFormed h⟩
  · obtain ⟨rfl, i, hi⟩ := not_not.1 (mt wellFormed_wr_iff.2 h)
    have hcmd : cmdWord i = some d := decodeCmd_eq_ok_iff.1 hi
    exact .inr ⟨rfl, by rw [decodeWrite_of_cmdWord hcmd, hcmd]⟩

theorem decodeWrite_wellFormed (a : BusAddr) (d : Word) : (decodeWrite a d).wellFormed = true := by
  rcases decodeWrite_cases a d with ⟨h, e⟩ | ⟨_, h⟩
  · rw [e, h]
  · exact wellFormed_of_cmdWord h

theorem encode_decodeWrite (a : BusAddr) (d : Word) : encode (decodeWrite a d) = busWord true a d := by
  rcases decodeWrite_cases a d with ⟨_, e⟩ | ⟨rfl, h⟩
  · rw [e, encode]
  · exact encode_of_cmdWord h

/-! ### Transactions -/

theorem decode_read {w : BusWord} (h : busWe w = false) : decode w = .rd (busAddr w) := by
  rw [decode, h, if_neg Bool.false_ne_true]

theorem decode_write {w : BusWord} (h : busWe w = true) : decode w = decodeWrite (busAddr w) (busData w) := by
  rw [decode, if_pos h]

theorem decode_busWord_read (a : BusAddr) (d : Word) : decode (busWord false a d) = .rd a := by
  rw [decode_read (busWe_busWord false a d), busAddr_busWord]

theorem decode_busWord_write (a : BusAddr) (d : Word) : decode (busWord true a d) = decodeWrite a d := by
  rw [decode_write (busWe_busWord true a d), busAddr_busWord, busData_busWord]

theorem decode_encode_of_cmdWord {i : Instr} {d : Word} (h : cmdWord i = some d) : decode (encode i) = i := by
  rw [encode_of_cmdWord h, decode_busWord_write, decodeWrite_of_cmdWord h]

/-- Settles O1: a read by its address, a well-formed write by itself, and a command by its `CMD` word. -/
theorem decodeOfEncodeIsTheInstruction : Obligations.DecodeOfEncodeIsTheInstruction := by
  intro i hi
  cases i with
  | rd a => exact decode_busWord_read a 0
  | wr a d => exact (decode_busWord_write a d).trans (decodeWrite_of_wellFormed hi)
  | enc | dec | chrof | valof => exact decode_encode_of_cmdWord rfl

/-- Settles O2: the word is the tuple of its fields, and encoding writes the fields the decoder read. -/
theorem encodeOfDecodeIsTheWord : Obligations.EncodeOfDecodeIsTheWord := by
  intro w
  cases hw : busWe w with
  | false =>
    rw [decode_read hw]
    refine ⟨rfl, fun h => ?_⟩
    have hdata : busData w = 0 := h.resolve_left Bool.false_ne_true
    calc encode (.rd (busAddr w))
        = busWord (busWe w) (busAddr w) (busData w) := by rw [encode, hw, hdata]
      _ = w := busWord_fields w
  | true =>
    rw [decode_write hw]
    refine ⟨decodeWrite_wellFormed _ _, fun _ => ?_⟩
    rw [encode_decodeWrite, ← hw, busWord_fields]

/-- Settles O3, by evaluating the decoder on the nine words. -/
theorem writtenOutWordsDecode : Obligations.WrittenOutWordsDecode := by
  unfold Obligations.WrittenOutWordsDecode
  decide

/-! ### Words of the opcode table -/

theorem decodeTableWord_eq_some_iff {nbits w : Nat} {i : Instr} :
    decodeTableWord nbits w = some i ↔ ∃ t, tableTransaction nbits w = .ok t ∧ decode t = i := by
  rw [decodeTableWord]
  cases tableTransaction nbits w <;> simp

end Sys2Proof

namespace Sys2Proof.Machine

theorem State.withFetchWord_of_ok {nbits w : Nat} {t : BusWord} (h : tableTransaction nbits w = .ok t) (s : State) :
    s.withFetchWord nbits w = s.pushTransaction t := by
  rw [State.withFetchWord, h]

/-- A transaction put in front of the stream is the next one taken (R64). -/
theorem step_pushTransaction (s : State) (w : BusWord) : step (s.pushTransaction w) = exec (decode w) s :=
  step_transaction (s.pushTransaction_input w)

/-- Settles O6: the word's transaction is put in front of the stream, and the step takes it. -/
theorem fetchWordRunsTheTableInstruction : Obligations.FetchWordRunsTheTableInstruction := by
  intro s nbits w i h
  obtain ⟨t, ht, rfl⟩ := decodeTableWord_eq_some_iff.1 h
  rw [State.withFetchWord_of_ok ht, step_pushTransaction]

end Sys2Proof.Machine
end

section
/-! SUPPORT. The two tables as functions of the listing (40_alphabet_tables.md R90 to R96): what is at a digit's place,
at what place a character is found, and that the two are inverse. -/

namespace Sys2Proof.Machine

/-! ### The listing (R91, R92) -/

theorem alphabet_length : alphabet.length = 85 := rfl

theorem alphabet_nodup : alphabet.Nodup := by decide

theorem alphabet_bounds {a : AsciiCode} (h : a ∈ alphabet) : 0x21 ≤ a.toNat ∧ a.toNat ≤ 0x7D := by
  revert a
  decide

/-- A code and a character are equal on all 21 bits exactly when they are the same number (R96). -/
theorem setWidth_eq_iff (a : AsciiCode) (c : CharCell) : a.setWidth 21 = c ↔ a.toNat = c.toNat := by
  rw [← BitVec.toNat_inj, BitVec.toNat_setWidth_of_le (by decide)]

theorem setWidth_inj {a b : AsciiCode} : a.setWidth 21 = b.setWidth 21 ↔ a = b := by
  rw [setWidth_eq_iff, BitVec.toNat_setWidth_of_le (by decide), BitVec.toNat_inj]

/-! ### `AROM` (R90) -/

/-- A digit's character is the entry of the listing at its place. -/
theorem getElem?_alphabet {d : Digit} (h : d.toNat ≤ 84) : alphabet[d.toNat]? = some (charOf d) := by
  have hlt : d.toNat < alphabet.length := alphabet_length ▸ Nat.lt_succ_of_le h
  simp only [charOf, List.getElem?_eq_getElem hlt]

theorem charOf_mem {d : Digit} (h : d.toNat ≤ 84) : charOf d ∈ alphabet :=
  List.mem_of_getElem? (getElem?_alphabet h)

/-- A digit's character code, read off the listing of codes. -/
theorem charOf_toNat_of_code {d : Digit} {n : Nat} (h : d.toNat ≤ 84)
    (hn : (alphabet.map BitVec.toNat)[d.toNat]? = some n) : (charOf d).toNat = n := by
  rw [List.getElem?_map, getElem?_alphabet h] at hn
  exact Option.some.inj hn

/-! ### `IROM` (R93, R94, R96) -/

/-- An entry of a listing without repetitions is found at its own place. -/
theorem placeOf_getElem? {l : List AsciiCode} (hl : l.Nodup) {n : Nat} {a : AsciiCode} (h : l[n]? = some a) (d : Nat) :
    placeOf (a.setWidth 21) l d = some (d + n) := by
  induction l generalizing n d with
  | nil => cases h
  | cons b l ih =>
    obtain ⟨hb, hl⟩ := List.nodup_cons.1 hl
    cases n with
    | zero =>
      cases h
      exact if_pos rfl
    | succ n =>
      have hne : b.setWidth 21 ≠ a.setWidth 21 := fun e => hb (setWidth_inj.1 e ▸ List.mem_of_getElem? h)
      rw [placeOf, if_neg hne, ih hl h, Nat.add_right_comm, Nat.add_assoc]

/-- A character is not found exactly when no entry is that character. -/
theorem placeOf_eq_none_iff (c : CharCell) (l : List AsciiCode) (d : Nat) :
    placeOf c l d = none ↔ c.toNat ∉ l.map BitVec.toNat := by
  induction l generalizing d with
  | nil => simp [placeOf]
  | cons a l ih =>
    by_cases h : a.setWidth 21 = c
    · rw [placeOf, if_pos h, List.map_cons, (setWidth_eq_iff a c).1 h]
      simp
    · have hne : c.toNat ≠ a.toNat := fun e => h ((setWidth_eq_iff a c).2 e.symm)
      rw [placeOf, if_neg h, ih, List.map_cons, List.mem_cons, or_iff_right hne]

theorem valueOf_eq_none_iff (c : CharCell) : valueOf c = none ↔ c.toNat ∉ alphabet.map BitVec.toNat := by
  rw [valueOf, Option.map_eq_none_iff, placeOf_eq_none_iff]

/-- `IROM` finds the character `AROM` holds for a digit, and finds it at that digit. -/
theorem valueOf_charOf {d : Digit} (h : d.toNat ≤ 84) : valueOf ((charOf d).setWidth 21) = some d := by
  rw [valueOf, placeOf_getElem? alphabet_nodup (getElem?_alphabet h), Nat.zero_add, Option.map_some,
    BitVec.ofNat_toNat, BitVec.setWidth_eq]

/-- What `IROM` finds is a digit whose character in `AROM` is the one looked up. -/
theorem charOf_of_valueOf {c : CharCell} {d : Digit} (h : valueOf c = some d) :
    d.toNat ≤ 84 ∧ (charOf d).setWidth 21 = c := by
  obtain ⟨n, hn, rfl⟩ := Option.map_eq_some_iff.1 h
  obtain ⟨-, hlt, a, ha, hac⟩ := placeOf_some c alphabet 0 n hn
  rw [alphabet_length, Nat.zero_add] at hlt
  have hd : (BitVec.ofNat 7 n : Digit).toNat = n := digit_toNat n hlt
  have hle : (BitVec.ofNat 7 n : Digit).toNat ≤ 84 := hd.symm ▸ Nat.le_of_lt_succ hlt
  have hchar : some (charOf (BitVec.ofNat 7 n)) = some a := by rw [← getElem?_alphabet hle, hd, ← ha, Nat.sub_zero]
  exact ⟨hle, Option.some.inj hchar ▸ hac⟩

/-- A character outside the codes 0x21 to 0x7D is not found. -/
theorem valueOf_eq_none_of_unprintable {c : CharCell} (h : c.toNat < 0x21 ∨ 0x7D < c.toNat) : valueOf c = none := by
  rw [valueOf_eq_none_iff]
  intro hmem
  obtain ⟨a, ha, hac⟩ := List.mem_map.1 hmem
  have := alphabet_bounds ha
  omega

/-! ### The statements about the tables -/

/-- Settles O38: the listing has no repetitions, so a digit's character is found at the digit's own place. -/
theorem tablesAreInverse : Obligations.TablesAreInverse :=
  ⟨fun _ h => valueOf_charOf h, fun _ _ h => charOf_of_valueOf h⟩

/-- Settles O39: every code of the alphabet lies in 0x21 to 0x7D. -/
theorem onlyAsciiIsFound : Obligations.OnlyAsciiIsFound :=
  ⟨fun _ h => valueOf_eq_none_of_unprintable (.inr (Nat.lt_of_lt_of_le (by decide) h)),
    fun _ h => valueOf_eq_none_of_unprintable (.inl (Nat.lt_succ_of_le h)),
    valueOf_eq_none_of_unprintable (.inr (by decide))⟩

/-- Settles O36: the listing by its runs of consecutive codes, one for each range of digits. -/
theorem alphabetInClosedForm : Obligations.AlphabetInClosedForm := by
  have hdecimal : ∀ n ≤ 9, (alphabet.map BitVec.toNat)[n]? = some (0x30 + n) := by decide
  have hlower : ∀ n ≤ 35, 10 ≤ n → (alphabet.map BitVec.toNat)[n]? = some (0x61 + (n - 10)) := by decide
  have hupper : ∀ n ≤ 61, 36 ≤ n → (alphabet.map BitVec.toNat)[n]? = some (0x41 + (n - 36)) := by decide
  exact ⟨fun d h => charOf_toNat_of_code (by omega) (hdecimal _ h),
    fun d h h' => charOf_toNat_of_code (by omega) (hlower _ h' h),
    fun d h h' => charOf_toNat_of_code (by omega) (hupper _ h' h), by decide⟩

/-- Settles O37: the codes of the listing, and which numbers from 0x20 to 0x7E are not among them. -/
theorem alphabetIsDistinctAndPrintable : Obligations.AlphabetIsDistinctAndPrintable := by
  refine ⟨alphabet_length, alphabet_nodup, fun d h => alphabet_bounds (charOf_mem h), fun c h h' => ?_⟩
  have houtside : ∀ n ≤ 0x7E, 0x20 ≤ n → (n ∉ alphabet.map BitVec.toNat ↔
      n ∈ [0x20, 0x22, 0x27, 0x2C, 0x3B, 0x5C, 0x5F, 0x60, 0x7C, 0x7E]) := by decide
  have hc : (BitVec.ofNat 21 c).toNat = c := Nat.mod_eq_of_lt (by omega)
  rw [valueOf_eq_none_iff, hc]
  exact houtside c h' h

end Sys2Proof.Machine
end

section
/-! SUPPORT. The whole effect of the table commands (40_alphabet_tables.md R98, R99). -/

namespace Sys2Proof.Machine

theorem exec_chrof (s : State) : exec .chrof s = .next ((chrofCommand s).respond .ack) := rfl

theorem exec_valof (s : State) : exec .valof s = .next ((valofCommand s).respond .ack) := rfl

/-- Settles O40: the comparison with 84 selects the refusal or the character. -/
theorem chrofWholeEffect : Obligations.ChrofWholeEffect := by
  intro s
  refine ⟨decode_encode_of_cmdWord (i := .chrof) rfl, fun h => ?_, fun h => ?_⟩ <;> rw [exec_chrof, chrofCommand_eq]
  · rw [if_pos h]
    rfl
  · rw [if_neg (Nat.not_lt.2 h), BitVec.ofNat_toNat]
    rfl

/-- Settles O41: an operand below 2^21 is looked up by its low 21 bits, any other is not found. -/
theorem valofWholeEffect : Obligations.ValofWholeEffect := by
  intro s
  refine ⟨decode_encode_of_cmdWord (i := .valof) rfl, ?_⟩
  rw [exec_valof, valofCommand_eq, BitVec.ofNat_toNat, ← cellOf_eq]
  simp only [fitsCell_iff]
  rfl

end Sys2Proof.Machine
end

section
/-! SUPPORT. The digit generator in natural numbers (41_encoder.md R113 to R116, R122): the five digits of a number in
base 85, by division from the top and from the bottom. -/

namespace Sys2Proof.Machine

/-- A number below 85^5 is the numeral of its five digits (R114). -/
theorem sum_digitOf {v : Nat} (h : v < 85 ^ 5) :
    digitOf v 0 * 52200625 + digitOf v 1 * 614125 + digitOf v 2 * 7225 + digitOf v 3 * 85 + digitOf v 4 = v := by
  simp only [digitOf, Nat.reduceSub, Nat.reducePow] at h ⊢
  omega

/-- The digits of a numeral are the ones it is written with (R114). -/
theorem digitOf_numeral {e0 e1 e2 e3 e4 v : Nat} (h0 : e0 ≤ 84) (h1 : e1 ≤ 84) (h2 : e2 ≤ 84) (h3 : e3 ≤ 84)
    (h4 : e4 ≤ 84) (hv : v = e0 * 52200625 + e1 * 614125 + e2 * 7225 + e3 * 85 + e4) :
    e0 = digitOf v 0 ∧ e1 = digitOf v 1 ∧ e2 = digitOf v 2 ∧ e3 = digitOf v 3 ∧ e4 = digitOf v 4 := by
  simp only [digitOf, Nat.reduceSub, Nat.reducePow]
  omega

/-- The first digit of a 32-bit value is at most 82 (R116). -/
theorem digitOf_zero_le {v : Nat} (h : v < 2 ^ 32) : digitOf v 0 ≤ 82 := by
  simp only [digitOf, Nat.reduceSub, Nat.reducePow] at h ⊢
  omega

/-- The digit registers hold the digits with no loss in their 7 bits (R114, R116). -/
theorem digits_toNat (v : Word) :
    (digits v).d0.toNat = digitOf v.toNat 0 ∧ (digits v).d1.toNat = digitOf v.toNat 1 ∧
    (digits v).d2.toNat = digitOf v.toNat 2 ∧ (digits v).d3.toNat = digitOf v.toNat 3 ∧
    (digits v).d4.toNat = digitOf v.toNat 4 := by
  rw [digits_eq]
  have hdigit : ∀ i, (BitVec.ofNat 7 (digitOf v.toNat i) : Digit).toNat = digitOf v.toNat i :=
    fun i => digit_toNat _ (digitOf_lt _ i)
  exact ⟨hdigit 0, hdigit 1, hdigit 2, hdigit 3, hdigit 4⟩

/-- Settles O43: the registers hold the digits of `v`, and a numeral determines its digits. -/
theorem digitsAreTheNumeral : Obligations.DigitsAreTheNumeral := by
  intro v
  have hle : ∀ i, digitOf v.toNat i ≤ 84 := fun i => Nat.le_of_lt_succ (digitOf_lt v.toNat i)
  obtain ⟨h0, h1, h2, h3, h4⟩ := digits_toNat v
  rw [h0, h1, h2, h3, h4]
  refine ⟨rfl, rfl, rfl, rfl, rfl, digitOf_zero_le v.isLt, hle 1, hle 2, hle 3, hle 4,
    fun e0 e1 e2 e3 e4 he0 he1 he2 he3 he4 => ⟨digitOf_numeral he0 he1 he2 he3 he4, ?_⟩⟩
  rintro ⟨rfl, rfl, rfl, rfl, rfl⟩
  exact (sum_digitOf (v.isLt.trans (by decide))).symm

/-- Settles O44: dividing by 85 `k` times is dividing by `85^k`, and the fifth quotient is a digit by its bound. -/
theorem repeatedDivisionGivesTheSameDigits : Obligations.RepeatedDivisionGivesTheSameDigits := by
  intro v
  have hv := v.isLt
  obtain ⟨h0, h1, h2, h3, h4⟩ := digits_toNat v
  rw [h0, h1, h2, h3, h4]
  simp only [digitOf, Nat.div_div_eq_div_mul, Nat.reduceSub, Nat.reducePow, Nat.reduceMul, Nat.div_one, true_and]
  omega

/-- Settles O45, by running the digit generator and reading `AROM`. -/
theorem boundaryValueIsUnsigned : Obligations.BoundaryValueIsUnsigned := by
  unfold Obligations.BoundaryValueIsUnsigned
  decide

end Sys2Proof.Machine
end

section
/-! SUPPORT. A successful `ENC` (41_encoder.md R111 to R119): when it succeeds, and what it then leaves in `OBUF`. -/

namespace Sys2Proof.Machine

theorem exec_enc (s : State) : exec .enc s = .next ((encCommand s).respond .ack) := rfl

theorem exec_dec (s : State) : exec .dec s = .next ((decCommand s).respond .ack) := rfl

/-! ### The empty view -/

/-- With no cells to scan, `ENC` ends right after its prologue (R118). -/
theorem encCommand_empty {s : State} (hlen : s.len = 0) (hoff : s.off.toNat ≤ s.config.cap) :
    encCommand s = s.prologue.beginScan.finish 0 := by
  have hfit : s.off.toNat + s.len.toNat ≤ s.config.cap := by rw [hlen]; exact hoff
  rw [encCommand_scan s hfit (by rw [hlen]; rfl), hlen]
  rfl

/-- With no cells to scan, `DEC` ends right after its prologue (R141). -/
theorem decCommand_empty {s : State} (hlen : s.len = 0) (hoff : s.off.toNat ≤ s.config.cap) :
    decCommand s = s.prologue.beginScan.finish 0 := by
  have hfit : s.off.toNat + s.len.toNat ≤ s.config.cap := by rw [hlen]; exact hoff
  rw [decCommand_scan s hfit (by rw [hlen]; rfl), hlen]
  rfl

/-- Settles O34: both commands end right after their prologue. -/
theorem emptyViewSucceeds : Obligations.EmptyViewSucceeds := by
  intro s i hi hlen hoff
  rcases hi with rfl | rfl
  · exact ⟨_, exec_enc s, by rw [encCommand_empty hlen hoff]; exact ⟨rfl, rfl, ⟨rfl, rfl, rfl, rfl⟩, rfl⟩⟩
  · exact ⟨_, exec_dec s, by rw [decCommand_empty hlen hoff]; exact ⟨rfl, rfl, ⟨rfl, rfl, rfl, rfl⟩, rfl⟩⟩

/-! ### The whole result -/

theorem OnlyOutputAndWork.obufEpoch {s t : State} (h : OnlyOutputAndWork s t) : t.obufEpoch = s.obufEpoch := by
  obtain ⟨_, _, rfl⟩ := h
  rfl

/-- The `OBUF` cells above the complete groups are as they were (log 5). -/
theorem EncoderAt.obufCell_kept {s t : State} {k : Nat} (h : EncoderAt s k t) {j : Nat} (hj : k / 4 * 5 ≤ j) :
    t.obufCell j = s.obufCell j := by
  rw [State.obufCell, State.obufCell, h.kept j (by omega), h.frame.obufEpoch]

/-- `ENC` on a view of complete groups. -/
theorem encCommand_ok {s : State} (hc : s.config.Legal) (hfit : s.off.toNat + s.len.toNat ≤ s.config.cap)
    (h4 : s.len.toNat % 4 = 0) :
    ∃ t, EncoderAt s.prologue s.len.toNat t ∧
      encCommand s = t.finish (BitVec.ofNat 32 (s.len.toNat / 4 * 5)) :=
  ⟨_, encodeScan_at s.prologue s.len.toNat (len_lt_of_fits s hc hfit), encCommand_scan s hfit h4⟩

/-- Settles O46, by where the scan of the whole view ends: every group is emitted and every later cell kept. -/
theorem encodeGivesEveryGroup : Obligations.EncodeGivesEveryGroup := by
  intro s hc hfit h4
  have holen := encOlen_toNat (len_lt_of_fits s hc hfit)
  obtain ⟨hinputs, hout⟩ := encCommand_keeps s
  obtain ⟨t, hat, e⟩ := encCommand_ok hc hfit h4
  rw [e] at hinputs hout
  refine ⟨_, exec_enc s, ?_⟩
  rw [e]
  obtain ⟨_, _, rfl⟩ := hat.frame
  exact ⟨rfl, holen, ⟨rfl, rfl, rfl, rfl⟩, rfl, fun g i hg hi => State.obufCell_of_read (hat.written g i hg hi),
    fun _ hj => hat.obufCell_kept hj, hinputs.respond .ack, rfl, congrArg (Response.ack :: ·) hout⟩

/-- A successful `ENC` had a view of complete groups, and leaves their characters in `OBUF` and nothing else to read
(R118). -/
theorem exec_enc_ok {s t : State} (hc : s.config.Legal) (h : exec .enc s = .next t) (hk : t.kind = .ok) :
    s.len.toNat % 4 = 0 ∧ t.olen.toNat = s.len.toNat / 4 * 5 ∧
      ∀ j < s.len.toNat / 4 * 5, t.obufCell j = s.encChar (j / 5) (j % 5) := by
  obtain rfl := next_inj.1 ((exec_enc s).symm.trans h)
  rcases encCommand_cases s hc with ⟨_, e⟩ | ⟨_, _, e⟩ | ⟨hfit, h4, a, hat, e⟩ <;> rw [e] at hk ⊢
  · cases hk
  · cases hk
  · exact ⟨h4, encOlen_toNat (len_lt_of_fits s hc hfit), fun _ hj => State.obufCell_of_read (hat.read hj)⟩

/-! ### The alphabet -/

/-- The code in the `OBUF` cell of a digit is the code of its character: 7 bits in 8 (R76). -/
theorem charByte_toNat (d : Digit) : (charByte d).toNat = (charOf d).toNat :=
  BitVec.toNat_setWidth_of_le (by decide)

theorem charByte_setWidth (d : Digit) : (charByte d).setWidth 21 = (charOf d).setWidth 21 := by
  rw [eq_comm, setWidth_eq_iff, ← charByte_toNat, BitVec.toNat_setWidth_of_le (by decide)]

/-- The `OBUF` cell of a base-85 digit holds an alphabet character (R119). -/
theorem charByte_in_alphabet {d : Digit} (h : d.toNat ≤ 84) :
    (valueOf ((charByte d).setWidth 21)).isSome = true ∧ 0x21 ≤ (charByte d).toNat ∧ (charByte d).toNat ≤ 0x7D := by
  refine ⟨by rw [charByte_setWidth, valueOf_charOf h]; rfl, ?_⟩
  rw [charByte_toNat]
  exact alphabet_bounds (charOf_mem h)

/-- Settles O47: each readable cell is the character of a base-85 digit. -/
theorem encodeOutputIsInTheAlphabet : Obligations.EncodeOutputIsInTheAlphabet := by
  intro s t hc h hk k hlt
  obtain ⟨_, holen, hcells⟩ := exec_enc_ok hc h hk
  rw [hcells k (holen ▸ hlt)]
  have hdigit := digitOf_lt (s.encValue (k / 5)) (k % 5)
  exact charByte_in_alphabet (by rw [digit_toNat _ hdigit]; exact Nat.le_of_lt_succ hdigit)

/-! ### Concatenation -/

/-- A character depends on the four bytes of its group alone, wherever the group stands (R119). -/
theorem State.encChar_congr {s t : State} {g g' : Nat}
    (hbytes : ∀ i < 4, s.viewByte (4 * g + i) = t.viewByte (4 * g' + i)) (i : Nat) :
    s.encChar g i = t.encChar g' i := by
  have h0 : s.viewByte (4 * g) = t.viewByte (4 * g') := hbytes 0 (by decide)
  rw [State.encChar, State.encChar, State.encValue, State.encValue, h0, hbytes 1 (by decide), hbytes 2 (by decide),
    hbytes 3 (by decide)]

/-- Settles O55: group `g` of the concatenation is group `g` of the first part, or group `g - LEN/4` of the second. -/
theorem encodeOfConcatenation : Obligations.EncodeOfConcatenation := by
  intro s t u t' u' hs ht hu et kt eu ku hfit hlen hfirst hsecond
  obtain ⟨t4, tolen, tcells⟩ := exec_enc_ok ht et kt
  obtain ⟨u4, uolen, ucells⟩ := exec_enc_ok hu eu ku
  obtain ⟨s', es, ks, -⟩ := encodeGivesEveryGroup s hs hfit (by omega)
  obtain ⟨-, solen, scells⟩ := exec_enc_ok hs es ks
  rw [tolen, uolen]
  refine ⟨s', es, ks, by omega, fun j hj => ?_, fun j hj => ?_⟩
  · rw [scells j (by omega), tcells j hj]
    exact State.encChar_congr (fun i hi => hfirst _ (by omega)) _
  · have hgroup : (t.len.toNat / 4 * 5 + j) / 5 = t.len.toNat / 4 + j / 5 := by omega
    have hplace : (t.len.toNat / 4 * 5 + j) % 5 = j % 5 := by omega
    rw [scells _ (by omega), ucells j hj, hgroup, hplace]
    refine State.encChar_congr (fun i hi => ?_) _
    rw [← hsecond _ (by omega)]
    congr 1
    omega

end Sys2Proof.Machine
end

section
/-! SUPPORT. The arithmetic of a decoder group (42_decoder.md R134 to R137): the accumulator, the four bytes, the digits
of a view, and which numerals reach 2^32. -/

namespace Sys2Proof.Machine

/-! ### The accumulator and the bytes -/

/-- Settles O49: each step is its number modulo 2^32, and the first four digits stay below 2^32. -/
theorem hornerGivesTheGroupValue : Obligations.HornerGivesTheGroupValue := by
  intro acc d0 d1 d2 d3 d4
  refine ⟨rfl, hornerStep_next acc d0, ?_⟩
  have h0 := d0.isLt
  have h1 := d1.isLt
  have h2 := d2.isLt
  have h3 := d3.isLt
  simp only [hornerStep_next, hornerStep_first]
  omega

/-- Settles O50: the four bytes are the base-256 digits of the value. -/
theorem unpackIsBigEndian : Obligations.UnpackIsBigEndian := by
  intro v
  have hv := v.isLt
  simp only [groupByte_toNat, Nat.reduceSub, Nat.reducePow]
  omega

/-- A byte of a decoder group is that of the group's value modulo 2^32 (R135, R137). -/
theorem State.decByte_toNat (s : State) (g k : Nat) :
    (s.decByte g k).toNat = s.decValue g % 2 ^ 32 / 256 ^ (3 - k) % 256 := by
  rw [State.decByte, groupByte_toNat, BitVec.toNat_ofNat]

/-! ### The digits of a view -/

theorem State.viewDigit_of_valueOf {s : State} {k : Nat} {d : Digit} (h : valueOf (s.viewChar k) = some d) :
    s.viewDigit k = d.toNat := by
  rw [State.viewDigit, h, Option.getD_some]

theorem State.viewDigit_le (s : State) (k : Nat) : s.viewDigit k ≤ 84 := by
  cases h : valueOf (s.viewChar k) with
  | none =>
    rw [State.viewDigit, h]
    exact Nat.zero_le 84
  | some d =>
    rw [State.viewDigit_of_valueOf h]
    exact (charOf_of_valueOf h).1

/-- The digits of a decoder group's exact value are those of its characters (R135). -/
theorem State.digitOf_decValue (s : State) (g : Nat) {i : Nat} (hi : i < 5) :
    digitOf (s.decValue g) i = s.viewDigit (5 * g + i) := by
  obtain ⟨h0, h1, h2, h3, h4⟩ := digitOf_numeral (s.viewDigit_le (5 * g)) (s.viewDigit_le (5 * g + 1))
    (s.viewDigit_le (5 * g + 2)) (s.viewDigit_le (5 * g + 3)) (s.viewDigit_le (5 * g + 4))
    (rfl : s.decValue g = _)
  match i, hi with
  | 0, _ => exact h0.symm
  | 1, _ => exact h1.symm
  | 2, _ => exact h2.symm
  | 3, _ => exact h3.symm
  | 4, _ => exact h4.symm

/-- A decoder group that holds the digits of a number below 85^5 has that number as its exact value (R135). -/
theorem State.decValue_of_digits {s : State} {g v : Nat} (hv : v < 85 ^ 5)
    (h : ∀ i < 5, s.viewDigit (5 * g + i) = digitOf v i) : s.decValue g = v := by
  have h0 : s.viewDigit (5 * g) = digitOf v 0 := h 0 (by decide)
  rw [State.decValue, h0, h 1 (by decide), h 2 (by decide), h 3 (by decide), h 4 (by decide), sum_digitOf hv]

/-- Five digits represent at most 85^5 - 1. -/
theorem State.decValue_le (s : State) (g : Nat) : s.decValue g ≤ 4437053124 := by
  have h0 := s.viewDigit_le (5 * g)
  have h1 := s.viewDigit_le (5 * g + 1)
  have h2 := s.viewDigit_le (5 * g + 2)
  have h3 := s.viewDigit_le (5 * g + 3)
  have h4 := s.viewDigit_le (5 * g + 4)
  unfold State.decValue
  omega

/-- The base-85 numerals that reach 2^32 are those from (82, 23, 54, 12, 1) on (R136). -/
theorem two_pow_32_le_numeral_iff {d0 d1 d2 d3 d4 : Nat} (h1 : d1 ≤ 84) (h2 : d2 ≤ 84) (h3 : d3 ≤ 84) (h4 : d4 ≤ 84) :
    2 ^ 32 ≤ d0 * 52200625 + d1 * 614125 + d2 * 7225 + d3 * 85 + d4 ↔
      82 < d0 ∨ d0 = 82 ∧ (23 < d1 ∨ d1 = 23 ∧ (54 < d2 ∨ d2 = 54 ∧ (12 < d3 ∨ d3 = 12 ∧ 1 ≤ d4))) := by
  omega

end Sys2Proof.Machine
end

section
/-! SUPPORT. What `DEC` leaves (42_decoder.md R131 to R142): after a view in the alphabet, and after one that is not. -/

namespace Sys2Proof.Machine

/-- The `OBUF` cells above the complete groups are as they were (log 5). -/
theorem DecoderAt.obufCell_kept {s t : State} {k : Nat} (h : DecoderAt s k t) {j : Nat} (hj : k / 5 * 4 ≤ j) :
    t.obufCell j = s.obufCell j := by
  rw [State.obufCell, State.obufCell, h.kept j (by omega), h.frame.obufEpoch]

/-! ### Success -/

/-- Settles O52, by where the scan of the whole view ends: every group is unpacked and every later cell kept. -/
theorem decodeGivesEveryGroup : Obligations.DecodeGivesEveryGroup := by
  intro s hc hfit h5 hall
  have holen := decOlen_toNat (len_lt_of_fits s hc hfit)
  obtain ⟨hinputs, hout⟩ := decCommand_keeps s
  obtain ⟨t, hat, e⟩ := decCommand_ok s hc hfit h5 hall
  have hbyte : ∀ g k, g < s.len.toNat / 5 → k < 4 →
      (t.obufCell (4 * g + k)).toNat = s.decValue g % 2 ^ 32 / 256 ^ (3 - k) % 256 := fun g k hg hk => by
    rw [State.obufCell_of_read (hat.written g k hg hk)]
    exact s.decByte_toNat g k
  rw [e] at hinputs hout
  refine ⟨_, exec_dec s, ?_⟩
  rw [e]
  obtain ⟨_, _, rfl⟩ := hat.frame
  exact ⟨rfl, holen, ⟨rfl, rfl, rfl, rfl⟩, rfl, hbyte, fun _ hj => hat.obufCell_kept hj, hinputs.respond .ack, rfl,
    congrArg (Response.ack :: ·) hout⟩

/-- A successful `DEC` had a view of complete groups in the alphabet, and leaves their bytes in `OBUF` and nothing else
to read (R141). -/
theorem exec_dec_ok {s t : State} (hc : s.config.Legal) (h : exec .dec s = .next t) (hk : t.kind = .ok) :
    s.len.toNat % 5 = 0 ∧ s.ViewInAlphabet ∧ t.olen.toNat = s.len.toNat / 5 * 4 ∧
      ∀ j < s.len.toNat / 5 * 4, t.obufCell j = s.decByte (j / 4) (j % 4) := by
  obtain rfl := next_inj.1 ((exec_dec s).symm.trans h)
  rcases decCommand_cases s hc with ⟨_, e⟩ | ⟨_, _, e⟩ | ⟨hfit, h5, hall, a, hat, e⟩ | ⟨_, _, _, _, _, _, _, _, e⟩ <;>
    rw [e] at hk ⊢
  · cases hk
  · cases hk
  · exact ⟨h5, hall, decOlen_toNat (len_lt_of_fits s hc hfit), fun _ hj => State.obufCell_of_read (hat.read hj)⟩
  · cases hk

/-- Settles O51: the digits are at most 84, and the value less its wrap is the value modulo 2^32. -/
theorem overflowingGroups : Obligations.OverflowingGroups := by
  intro s g hc hfit h5 hall hg
  have hle := s.decValue_le g
  obtain ⟨t, et, kt, -, hrecord, hres, hbyte, -⟩ := decodeGivesEveryGroup s hc hfit h5 hall
  refine ⟨two_pow_32_le_numeral_iff (s.viewDigit_le _) (s.viewDigit_le _) (s.viewDigit_le _) (s.viewDigit_le _), hle,
    t, et, kt, hrecord, hres, fun hwrap k hk => ?_, fun hlt k hk => ?_⟩
  · have hmod : s.decValue g % 2 ^ 32 = s.decValue g - 2 ^ 32 := by omega
    rw [hbyte g k hg hk, hmod]
  · rw [hbyte g k hg hk, Nat.mod_eq_of_lt hlt]

/-! ### An invalid character -/

/-- Settles O53, by where the scan stops: the record is latched over the state the decoder reached at cell `p`. -/
theorem firstInvalidCharacterIsReported : Obligations.FirstInvalidCharacterIsReported := by
  intro s p hc hfit h5 hp hbad hbefore
  obtain ⟨hinputs, hout⟩ := decCommand_keeps s
  obtain ⟨t, hat, e⟩ := decCommand_invalid s p hc hfit h5 hp hbefore hbad
  have hepos := hat.epos_toNat
  rw [e] at hinputs hout
  refine ⟨_, exec_dec s, ?_⟩
  rw [e]
  obtain ⟨_, _, rfl⟩ := hat.frame
  exact ⟨rfl, rfl, hepos, rfl, rfl, rfl, rfl, hinputs.respond .ack, fun _ hj => hat.obufCell_kept hj, rfl,
    congrArg (Response.ack :: ·) hout⟩

/-! ### Concatenation -/

/-- A byte depends on the five characters of its group alone, wherever the group stands (R142). -/
theorem State.decByte_congr {s t : State} {g g' : Nat}
    (hchars : ∀ i < 5, s.viewChar (5 * g + i) = t.viewChar (5 * g' + i)) (k : Nat) :
    s.decByte g k = t.decByte g' k := by
  have hdigit : ∀ i < 5, s.viewDigit (5 * g + i) = t.viewDigit (5 * g' + i) := fun i hi => by
    rw [State.viewDigit, State.viewDigit, hchars i hi]
  have h0 : s.viewDigit (5 * g) = t.viewDigit (5 * g') := hdigit 0 (by decide)
  rw [State.decByte, State.decByte, State.decValue, State.decValue, h0, hdigit 1 (by decide), hdigit 2 (by decide),
    hdigit 3 (by decide), hdigit 4 (by decide)]

/-- Settles O56: group `g` of the concatenation is group `g` of the first part, or group `g - LEN/5` of the second. -/
theorem decodeOfConcatenation : Obligations.DecodeOfConcatenation := by
  intro s t u t' u' hs ht hu et kt eu ku hfit hlen hfirst hsecond
  obtain ⟨t5, tall, tolen, tcells⟩ := exec_dec_ok ht et kt
  obtain ⟨u5, uall, uolen, ucells⟩ := exec_dec_ok hu eu ku
  have sall : s.ViewInAlphabet := fun k hk => by
    by_cases hkt : k < t.len.toNat
    · exact hfirst k hkt ▸ tall k hkt
    · have hku : k - t.len.toNat < u.len.toNat := by omega
      have hchar := hsecond _ hku
      rw [Nat.add_sub_cancel' (Nat.le_of_not_lt hkt)] at hchar
      exact hchar ▸ uall _ hku
  obtain ⟨s', es, ks, -⟩ := decodeGivesEveryGroup s hs hfit (by omega) sall
  obtain ⟨-, -, solen, scells⟩ := exec_dec_ok hs es ks
  rw [tolen, uolen]
  refine ⟨s', es, ks, by omega, fun j hj => ?_, fun j hj => ?_⟩
  · rw [scells j (by omega), tcells j hj]
    exact State.decByte_congr (fun i hi => hfirst _ (by omega)) _
  · have hgroup : (t.len.toNat / 5 * 4 + j) / 4 = t.len.toNat / 5 + j / 4 := by omega
    have hplace : (t.len.toNat / 5 * 4 + j) % 4 = j % 4 := by omega
    rw [scells _ (by omega), ucells j hj, hgroup, hplace]
    refine State.decByte_congr (fun i hi => ?_) _
    rw [← hsecond _ (by omega)]
    congr 1
    omega

end Sys2Proof.Machine
end

section
/-! SUPPORT. `ENC` and `DEC` undo each other (42_decoder.md R144 to R146): a group's characters determine its digits and
its value, its bytes are those of its value, and the two meet in the value. -/

namespace Sys2Proof.Machine

/-! ### Cells, bytes and characters -/

/-- The byte of a cell that holds a byte zero-extended. -/
theorem State.viewByte_of_viewChar {s : State} {k : Nat} {b : Byte} (h : s.viewChar k = b.setWidth 21) :
    s.viewByte k = b := by
  rw [State.viewByte, h, BitVec.setWidth_setWidth_of_le _ (by decide), BitVec.setWidth_eq]

/-- A cell that holds a byte is its byte zero-extended (R216 item 6). -/
theorem State.viewByte_setWidth {s : State} {k : Nat} (h : (s.viewChar k).toNat ≤ 0xFF) :
    (s.viewByte k).setWidth 21 = s.viewChar k := by
  apply BitVec.eq_of_toNat_eq
  rw [State.viewByte, BitVec.toNat_setWidth_of_le (by decide), BitVec.toNat_setWidth]
  exact Nat.mod_eq_of_lt (Nat.lt_succ_of_le h)

/-- A byte of an encoder group is that of the group's value (R113). -/
theorem State.viewByte_toNat (s : State) (g : Nat) {i : Nat} (hi : i < 4) :
    (s.viewByte (4 * g + i)).toNat = s.encValue g / 256 ^ (3 - i) % 256 := by
  have h0 := (s.viewByte (4 * g)).isLt
  have h1 := (s.viewByte (4 * g + 1)).isLt
  have h2 := (s.viewByte (4 * g + 2)).isLt
  have h3 := (s.viewByte (4 * g + 3)).isLt
  unfold State.encValue
  interval_cases i <;> simp only [Nat.add_zero, Nat.reduceSub, Nat.reducePow] <;> omega

/-- A character `ENC` emits is found in `IROM`, at the digit it stands for. -/
theorem State.valueOf_encChar (s : State) (g i : Nat) :
    valueOf ((s.encChar g i).setWidth 21) = some (BitVec.ofNat 7 (digitOf (s.encValue g) i)) := by
  have hdigit := digitOf_lt (s.encValue g) i
  rw [State.encChar, charByte_setWidth, valueOf_charOf]
  rw [digit_toNat _ hdigit]
  exact Nat.le_of_lt_succ hdigit

/-- The character of a valid cell's digit is the cell's. -/
theorem State.charByte_viewDigit {s : State} {k : Nat} (h : (valueOf (s.viewChar k)).isSome = true) :
    (charByte (BitVec.ofNat 7 (s.viewDigit k))).setWidth 21 = s.viewChar k := by
  obtain ⟨d, hd⟩ := Option.isSome_iff_exists.1 h
  rw [State.viewDigit_of_valueOf hd, BitVec.ofNat_toNat, BitVec.setWidth_eq, charByte_setWidth]
  exact (charOf_of_valueOf hd).2

theorem State.encValue_lt_numeral (s : State) (g : Nat) : s.encValue g < 85 ^ 5 :=
  (s.encValue_lt g).trans (by decide)

/-! ### Injectivity -/

/-- The five characters of a group determine its value (R116, R146). -/
theorem State.encValue_eq_of_encChar {s t : State} {g : Nat} (h : ∀ i < 5, s.encChar g i = t.encChar g i) :
    s.encValue g = t.encValue g := by
  have hdigit : ∀ i < 5, digitOf (s.encValue g) i = digitOf (t.encValue g) i := fun i hi => by
    have hfound : some (BitVec.ofNat 7 (digitOf (s.encValue g) i) : Digit) =
        some (BitVec.ofNat 7 (digitOf (t.encValue g) i)) := by
      rw [← s.valueOf_encChar, ← t.valueOf_encChar, h i hi]
    rw [← digit_toNat _ (digitOf_lt (s.encValue g) i), Option.some.inj hfound, digit_toNat _ (digitOf_lt _ i)]
  rw [← sum_digitOf (s.encValue_lt_numeral g), hdigit 0 (by decide), hdigit 1 (by decide), hdigit 2 (by decide),
    hdigit 3 (by decide), hdigit 4 (by decide), sum_digitOf (t.encValue_lt_numeral g)]

/-- Settles O48: equal characters are equal group values, and a value determines its bytes. -/
theorem encodeIsInjective : Obligations.EncodeIsInjective := by
  intro s t s' t' hs ht hlen es et ks kt hcells k hk
  obtain ⟨s4, solen, scells⟩ := exec_enc_ok hs es ks
  obtain ⟨-, -, tcells⟩ := exec_enc_ok ht et kt
  rw [← hlen] at tcells
  have hchar : ∀ i < 5, s.encChar (k / 4) i = t.encChar (k / 4) i := fun i hi => by
    have hj : 5 * (k / 4) + i < s.len.toNat / 4 * 5 := by omega
    have hgroup : (5 * (k / 4) + i) / 5 = k / 4 := by omega
    have hplace : (5 * (k / 4) + i) % 5 = i := by omega
    have hcell := hcells _ (solen.symm ▸ hj)
    rwa [scells _ hj, tcells _ hj, hgroup, hplace] at hcell
  rw [← Nat.div_add_mod k 4]
  apply BitVec.eq_of_toNat_eq
  rw [s.viewByte_toNat _ (Nat.mod_lt k (by decide)), t.viewByte_toNat _ (Nat.mod_lt k (by decide)),
    State.encValue_eq_of_encChar hchar]

/-! ### Bytes, characters, bytes -/

/-- A decoder group that holds the characters of an encoder group has its value (R144). -/
theorem State.decValue_of_encChar {s u : State} {g : Nat}
    (h : ∀ i < 5, u.viewChar (5 * g + i) = (s.encChar g i).setWidth 21) : u.decValue g = s.encValue g :=
  State.decValue_of_digits (s.encValue_lt_numeral g) fun i hi => by
    rw [State.viewDigit_of_valueOf ((congrArg valueOf (h i hi)).trans (s.valueOf_encChar g i)),
      digit_toNat _ (digitOf_lt _ i)]

/-- Settles O57: the group values of the characters are those of the bytes, and a value determines its bytes. -/
theorem decodeOfEncodeIsTheBytes : Obligations.DecodeOfEncodeIsTheBytes := by
  intro s t u hs hfit h4 hbytes et hu hfitu hlen hview
  obtain ⟨t', et', kt, -⟩ := encodeGivesEveryGroup s hs hfit h4
  obtain rfl := next_inj.1 (et'.symm.trans et)
  obtain ⟨-, tolen, tcells⟩ := exec_enc_ok hs et kt
  have hulen : u.len.toNat = s.len.toNat / 4 * 5 := hlen ▸ tolen
  have hchar : ∀ k < u.len.toNat, u.viewChar k = (s.encChar (k / 5) (k % 5)).setWidth 21 := fun k hk => by
    rw [hview k (hlen ▸ hk), tcells k (hulen ▸ hk)]
  have hall : u.ViewInAlphabet := fun k hk => by
    rw [hchar k hk, s.valueOf_encChar]
    rfl
  obtain ⟨r, er, kr, -⟩ := decodeGivesEveryGroup u hu hfitu (by omega) hall
  obtain ⟨-, -, rolen, rcells⟩ := exec_dec_ok hu er kr
  refine ⟨r, er, kr, BitVec.eq_of_toNat_eq (by omega), fun k hk => ?_⟩
  have hvalue : u.decValue (k / 4) = s.encValue (k / 4) := State.decValue_of_encChar fun i hi => by
    have hgroup : (5 * (k / 4) + i) / 5 = k / 4 := by omega
    have hplace : (5 * (k / 4) + i) % 5 = i := by omega
    rw [hchar _ (by omega), hgroup, hplace]
  have hbyte : u.decByte (k / 4) (k % 4) = s.viewByte k := BitVec.eq_of_toNat_eq <| calc
    (u.decByte (k / 4) (k % 4)).toNat = s.encValue (k / 4) / 256 ^ (3 - k % 4) % 256 := by
      rw [State.decByte_toNat, hvalue, Nat.mod_eq_of_lt (s.encValue_lt _)]
    _ = (s.viewByte k).toNat := by
      rw [← s.viewByte_toNat _ (Nat.mod_lt k (by decide)), Nat.div_add_mod]
  rw [rcells k (by omega), hbyte, State.viewByte_setWidth (hbytes k hk)]

/-! ### Characters, bytes, characters -/

/-- An encoder group that holds the bytes of a decoder group has its value modulo 2^32 (R136, R145). -/
theorem State.encValue_of_decByte {s u : State} {g : Nat} (h : ∀ i < 4, u.viewByte (4 * g + i) = s.decByte g i) :
    u.encValue g = s.decValue g % 2 ^ 32 := by
  have h0 : u.viewByte (4 * g) = s.decByte g 0 := h 0 (by decide)
  rw [State.encValue, h0, h 1 (by decide), h 2 (by decide), h 3 (by decide), ← BitVec.toNat_ofNat]
  exact (unpackIsBigEndian _).symm

/-- Settles O58: the group values of the bytes are those of the characters, which are below 2^32, and a value determines
its digits. -/
theorem encodeOfDecodeIsTheCanonicalString : Obligations.EncodeOfDecodeIsTheCanonicalString := by
  intro s t u hs hfit h5 hall hcanonical et hu hfitu hlen hview
  obtain ⟨t', et', kt, -⟩ := decodeGivesEveryGroup s hs hfit h5 hall
  obtain rfl := next_inj.1 (et'.symm.trans et)
  obtain ⟨-, -, tolen, tcells⟩ := exec_dec_ok hs et kt
  have hulen : u.len.toNat = s.len.toNat / 5 * 4 := hlen ▸ tolen
  have hbyte : ∀ k < u.len.toNat, u.viewByte k = s.decByte (k / 4) (k % 4) := fun k hk => by
    rw [State.viewByte_of_viewChar (hview k (hlen ▸ hk)), tcells k (hulen ▸ hk)]
  obtain ⟨r, er, kr, -⟩ := encodeGivesEveryGroup u hu hfitu (by omega)
  obtain ⟨-, rolen, rcells⟩ := exec_enc_ok hu er kr
  refine ⟨r, er, kr, BitVec.eq_of_toNat_eq (by omega), fun k hk => ?_⟩
  have hvalue : u.encValue (k / 5) = s.decValue (k / 5) := by
    rw [State.encValue_of_decByte fun i hi => ?_, Nat.mod_eq_of_lt (hcanonical _ (by omega))]
    have hgroup : (4 * (k / 5) + i) / 4 = k / 5 := by omega
    have hplace : (4 * (k / 5) + i) % 4 = i := by omega
    rw [hbyte _ (by omega), hgroup, hplace]
  rw [rcells k (by omega), State.encChar, hvalue, s.digitOf_decValue _ (Nat.mod_lt k (by decide)), Nat.div_add_mod,
    State.charByte_viewDigit (hall k hk)]

end Sys2Proof.Machine
end

section
/-! SUPPORT. The bus transactions by address (43_host_access.md R160 to R166): what a read answers and a write does
in the windows above the registers, which transactions get `buserr`, and what no bus write but that to `CMD` disturbs. -/

namespace Sys2Proof.Machine

theorem exec_rd (a : BusAddr) (s : State) : exec (.rd a) s = .next (s.respond (s.readBus a)) := rfl

theorem exec_wr (a : BusAddr) (d : Word) (s : State) : exec (.wr a d) s = .next (s.writeBus a d) := rfl

/-- A write to `CMD` of a command's word is that command (R70, R73). -/
theorem exec_wr_of_cmdWord {i : Instr} {d : Word} (h : cmdWord i = some d) (s : State) :
    exec (.wr 0 d) s = exec i s := by
  cases i <;> cases h <;> rfl

/-- Every instruction is a bus read or has the effect of a bus write (R70). -/
theorem exec_rd_or_writeBus (i : Instr) (s : State) :
    (∃ a, i = .rd a) ∨ ∃ a d, exec i s = .next (s.writeBus a d) := by
  cases i with
  | rd a => exact .inl ⟨a, rfl⟩
  | wr a d => exact .inr ⟨a, d, rfl⟩
  | enc | dec | chrof | valof => exact .inr ⟨0, _, (exec_wr_of_cmdWord rfl s).symm⟩

/-! ### Above the registers -/

/-- Every address is one of the eleven registers or lies above them (R22, R52). -/
theorem register_or_above (a : BusAddr) :
    a = 0x00000 ∨ a = 0x00001 ∨ a = 0x00002 ∨ a = 0x00003 ∨ a = 0x00004 ∨ a = 0x00005 ∨ a = 0x00006 ∨
    a = 0x00007 ∨ a = 0x00008 ∨ a = 0x00009 ∨ a = 0x0000A ∨ 0x0000B ≤ a.toNat := by
  obtain ⟨h0, h1, h2, h3, h4, h5, h6, h7, h8, h9, hA⟩ := addr_eq_iff a
  rw [h0, h1, h2, h3, h4, h5, h6, h7, h8, h9, hA]
  omega

theorem ne_register {a r : BusAddr} (ha : 0x0000B ≤ a.toNat) (hr : r.toNat < 0x0000B) : a ≠ r := by
  rintro rfl
  exact Nat.not_le_of_lt hr ha

/-- Above the registers only the readable cells of `OBUF` answer a read (R160, R164). -/
theorem State.readBus_above_registers (s : State) {a : BusAddr} (h : 0x0000B ≤ a.toNat) :
    s.readBus a = if 0x20000 ≤ a.toNat ∧ a.toNat < 0x20000 + s.olen.toNat then
      .data ((s.obufCell (a.toNat - 0x20000)).setWidth 32) else .buserr := by
  by_cases hobuf : 0x20000 ≤ a.toNat
  · have hreadable : (0x20000 ≤ a.toNat ∧ a.toNat < 0x20000 + s.olen.toNat) = (a.toNat - 0x20000 < s.olen.toNat) :=
      propext (by omega)
    simp only [State.readBus, locate_obuf a hobuf, hreadable]
  · rw [if_neg (hobuf ·.1), State.readBus]
    by_cases hibuf : 0x10000 ≤ a.toNat
    · rw [locate_ibuf a hibuf (Nat.lt_of_not_le hobuf)]
    · rw [locate_unmapped a h (Nat.lt_of_not_le hibuf)]

/-- Above the registers a write is one to a cell of the `IBUF` window, or gets `buserr` (R161, R162). -/
theorem State.writeBus_above_registers (s : State) {a : BusAddr} (d : Word) (h : 0x0000B ≤ a.toNat) :
    s.writeBus a d = if 0x10000 ≤ a.toNat ∧ a.toNat < 0x20000 then s.writeCell (a.toNat - 0x10000) d
      else s.respond .buserr := by
  by_cases hibuf : 0x10000 ≤ a.toNat ∧ a.toNat < 0x20000
  · rw [if_pos hibuf, State.writeBus, locate_ibuf a hibuf.1 hibuf.2]
  · rw [if_neg hibuf, State.writeBus]
    by_cases hobuf : 0x20000 ≤ a.toNat
    · rw [locate_obuf a hobuf]
    · rw [locate_unmapped a h (by omega)]

/-- An `IBUF` write stores bits [20:0] when the cell exists and the data is below 2^21 (R163). -/
theorem State.writeCell_eq (s : State) (i : Nat) (d : Word) :
    s.writeCell i d = if i < s.config.cap ∧ d.toNat < 2 ^ 21 then (s.writeIbuf i (d.setWidth 21)).respond .ack
      else s.respond .buserr := by
  simp only [State.writeCell, fitsCell_iff, cellOf_eq]

/-! ### The two transactions by the map -/

/-- Settles O17: a register by its address, every other address by its region. -/
theorem readAnswersByTheMap : Obligations.ReadAnswersByTheMap := by
  refine fun s a => ⟨fun d => decode_busWord_read a d, ?_⟩
  rcases register_or_above a with rfl | rfl | rfl | rfl | rfl | rfl | rfl | rfl | rfl | rfl | rfl | habove
  iterate 11 rfl
  rw [exec_rd, s.readBus_above_registers habove]
  iterate 10 rw [if_neg (ne_register habove (by decide))]
  rfl

/-- Settles O19: a register by its address, every other address by its region; a legal `CAP` keeps the cells of `IBUF`
inside its window. -/
theorem writeActsByTheMap : Obligations.WriteActsByTheMap := by
  intro s a d hc ha
  rcases register_or_above a with rfl | rfl | rfl | rfl | rfl | rfl | rfl | rfl | rfl | rfl | rfl | habove
  · exact absurd rfl ha
  iterate 10 rfl
  · rw [exec_wr, s.writeBus_above_registers d habove, s.writeCell_eq]
    iterate 3 rw [if_neg (ne_register habove (by decide))]
    obtain ⟨-, -, hcap⟩ := hc
    by_cases hcell : 0x10000 ≤ a.toNat ∧ a.toNat < 0x10000 + s.config.cap ∧ d.toNat < 2 ^ 21
    · rw [if_pos (by omega), if_pos (by omega), if_pos hcell]
      rfl
    · rw [if_neg hcell]
      split_ifs
      · omega
      · rfl
      · rfl

/-- Settles O21, command by command. -/
theorem commandWriteRunsTheCommand : Obligations.CommandWriteRunsTheCommand := fun s =>
  ⟨exec_wr_of_cmdWord rfl s, exec_wr_of_cmdWord rfl s, exec_wr_of_cmdWord rfl s, exec_wr_of_cmdWord rfl s⟩

/-! ### What a transaction leaves as it was -/

/-- Operand registers, `IBUF` and responses are no part of an outcome. -/
theorem State.sameOutcome_setInputs (s : State) (off len arg : Word) (ibuf : Memory 21) (output : List Response) :
    s.SameOutcome { s with off := off, len := len, arg := arg, ibuf := ibuf, output := output } :=
  ⟨rfl, rfl, rfl, rfl, rfl, rfl, rfl, fun _ _ => rfl⟩

/-- Settles O20: the address is that of the cell, and the write stores the data in it. -/
theorem ibufWriteStoresOneCell : Obligations.IbufWriteStoresOneCell := by
  intro s i d hc hi hd
  obtain ⟨-, -, hcap⟩ := hc
  have ha : (BitVec.ofNat 18 (0x10000 + i)).toNat = 0x10000 + i := by
    rw [BitVec.toNat_ofNat]
    omega
  have hwrite : s.writeBus (BitVec.ofNat 18 (0x10000 + i)) d = (s.writeIbuf i (d.setWidth 21)).respond .ack := by
    rw [s.writeBus_above_registers d (by omega), if_pos (by omega), s.writeCell_eq, ha, Nat.add_sub_cancel_left,
      if_pos ⟨hi, hd⟩]
  have hcell : ∀ k, ((s.writeIbuf i (d.setWidth 21)).respond .ack).ibufCell k =
      if k = i then d.setWidth 21 else s.ibufCell k := fun k => s.ibufCell_writeIbuf i k (d.setWidth 21)
  refine ⟨_, exec_wr _ d s, ?_⟩
  rw [hwrite]
  refine ⟨?_, fun k hk => (hcell k).trans (if_neg hk), fun _ => rfl, s.sameOutcome_setInputs _ _ _ _ _, rfl, rfl, rfl,
    rfl⟩
  rw [hcell i, if_pos rfl, BitVec.toNat_setWidth, Nat.mod_eq_of_lt hd]

/-- A write that is not to `CMD` gets `buserr`, or sets the one operand register it is addressed to, or stores a cell of
`IBUF` (R161). -/
theorem State.writeBus_cases_of_ne (s : State) {a : BusAddr} (d : Word) (h : a ≠ 0) :
    s.writeBus a d = s.respond .buserr ∨
    (∃ off len arg, (a ≠ 0x00002 → off = s.off) ∧ (a ≠ 0x00003 → len = s.len) ∧ (a ≠ 0x00009 → arg = s.arg) ∧
      s.writeBus a d = ({ s with off := off, len := len, arg := arg } : State).respond .ack) ∨
    (∃ i v, s.writeBus a d = (s.writeIbuf i v).respond .ack) := by
  rcases register_or_above a with rfl | rfl | rfl | rfl | rfl | rfl | rfl | rfl | rfl | rfl | rfl | habove
  · exact absurd rfl h
  · exact .inl rfl
  · exact .inr (.inl ⟨d, s.len, s.arg, (absurd rfl ·), fun _ => rfl, fun _ => rfl, rfl⟩)
  · exact .inr (.inl ⟨s.off, d, s.arg, fun _ => rfl, (absurd rfl ·), fun _ => rfl, rfl⟩)
  iterate 5 exact .inl rfl
  · exact .inr (.inl ⟨s.off, s.len, d, fun _ => rfl, fun _ => rfl, (absurd rfl ·), rfl⟩)
  · exact .inl rfl
  · rw [s.writeBus_above_registers d habove, s.writeCell_eq]
    split_ifs
    · exact .inr (.inr ⟨_, _, rfl⟩)
    · exact .inl rfl
    · exact .inl rfl

/-- An operand register is read at its own address only (R160). -/
theorem State.readBus_setOperands (s : State) {off len arg : Word} {b : BusAddr} (hoff : b = 0x00002 → off = s.off)
    (hlen : b = 0x00003 → len = s.len) (harg : b = 0x00009 → arg = s.arg) :
    ({ s with off := off, len := len, arg := arg } : State).readBus b = s.readBus b := by
  rcases register_or_above b with rfl | rfl | rfl | rfl | rfl | rfl | rfl | rfl | rfl | rfl | rfl | habove
  · rfl
  · rfl
  · exact congrArg Response.data (hoff rfl)
  · exact congrArg Response.data (hlen rfl)
  iterate 5 rfl
  · exact congrArg Response.data (harg rfl)
  · rfl
  · rw [State.readBus_above_registers _ habove, State.readBus_above_registers _ habove]
    rfl

/-- No read looks at `IBUF` (R160). -/
theorem State.readBus_writeIbuf (s : State) (i : Nat) (v : CharCell) (b : BusAddr) :
    (s.writeIbuf i v).readBus b = s.readBus b := rfl

/-- A write that is not to `CMD` changes what is read at its own address only, and no outcome (R161, R164). -/
theorem State.writeBus_undisturbed (s : State) {a : BusAddr} (d : Word) (h : a ≠ 0) :
    s.SameOutcome (s.writeBus a d) ∧ ∀ b, b ≠ a → (s.writeBus a d).readBus b = s.readBus b := by
  rcases s.writeBus_cases_of_ne d h with e | ⟨off, len, arg, hoff, hlen, harg, e⟩ | ⟨i, v, e⟩ <;> rw [e]
  · exact ⟨s.sameOutcome_setInputs _ _ _ _ _, fun b _ => s.readBus_respond _ b⟩
  · refine ⟨s.sameOutcome_setInputs _ _ _ _ _, fun b hb => ?_⟩
    rw [State.readBus_respond]
    exact s.readBus_setOperands (fun h2 => hoff (h2 ▸ hb.symm)) (fun h3 => hlen (h3 ▸ hb.symm))
      fun h9 => harg (h9 ▸ hb.symm)
  · refine ⟨s.sameOutcome_setInputs _ _ _ _ _, fun b _ => ?_⟩
    rw [State.readBus_respond, s.readBus_writeIbuf]

/-- Settles O25: a read only adds its answer, and a write sets only what its address names. -/
theorem resultStaysUntilTheNextCommand : Obligations.ResultStaysUntilTheNextCommand := by
  rintro s i a d (rfl | ⟨rfl, ha⟩)
  · exact ⟨_, exec_rd a s, s.sameOutcome_setInputs _ _ _ _ _, fun b _ => s.readBus_respond _ b⟩
  · exact ⟨_, exec_wr a d s, s.writeBus_undisturbed d ha⟩

/-! ### Bus errors -/

theorem State.respond_inj {s : State} {r r' : Response} : s.respond r = s.respond r' ↔ r = r' :=
  ⟨fun h => (List.cons.inj (congrArg State.output h)).1, congrArg s.respond⟩

/-- An acknowledged transaction got no `buserr`. -/
theorem State.ne_respond_buserr_of_ack {s t : State} {l : List Response} (h : t.output = .ack :: l) :
    t ≠ s.respond .buserr := by
  rintro rfl
  cases h

/-- A read of a write-only location, of an unmapped address or of an unreadable `OBUF` cell (R162). -/
theorem exec_rd_buserr_iff (s : State) (a : BusAddr) :
    exec (.rd a) s = .next (s.respond .buserr) ↔
      a.toNat = 0 ∨ (0x0000B ≤ a.toNat ∧ a.toNat < 0x20000) ∨ 0x20000 + s.olen.toNat ≤ a.toNat := by
  rw [exec_rd, next_inj, State.respond_inj]
  rcases register_or_above a with rfl | rfl | rfl | rfl | rfl | rfl | rfl | rfl | rfl | rfl | rfl | habove
  · exact iff_of_true rfl (.inl rfl)
  iterate 10 exact iff_of_false nofun (by bv_omega)
  · rw [s.readBus_above_registers habove]
    split_ifs
    · exact iff_of_false nofun (by omega)
    · exact iff_of_true rfl (by omega)

/-- A write of a read-only location, of an unmapped address, past `CAP`, or of data that fits no cell (R162). -/
theorem exec_wr_buserr_iff {s : State} (hc : s.config.Legal) (a : BusAddr) (d : Word) :
    exec (.wr a d) s = .next (s.respond .buserr) ↔
      a.toNat = 1 ∨ (4 ≤ a.toNat ∧ a.toNat ≤ 8) ∨ (0x0000A ≤ a.toNat ∧ a.toNat < 0x10000) ∨
      0x10000 + s.config.cap ≤ a.toNat ∨ (0x10000 ≤ a.toNat ∧ 2 ^ 21 ≤ d.toNat) := by
  by_cases ha : a = 0
  · subst ha
    refine iff_of_false (fun h => ?_) (by simp)
    exact State.ne_respond_buserr_of_ack (State.respond_output _ _) (next_inj.1 h)
  · obtain ⟨h0, -, h2, h3, -, -, -, -, -, h9, -⟩ := addr_eq_iff a
    have hnum : a.toNat ≠ 0 := mt h0.2 ha
    rw [writeActsByTheMap s a d hc ha, next_inj]
    simp only [h2, h3, h9]
    split_ifs
    iterate 4 exact iff_of_false (State.ne_respond_buserr_of_ack rfl) (by omega)
    exact iff_of_true rfl (by omega)

/-- A transaction that gets `buserr` changes no state at all (R162). -/
theorem exec_buserr_keeps_state {i : Instr} {s t : State} (h : exec i s = .next t)
    (hout : t.output = .buserr :: s.output) : t = s.respond .buserr := by
  rcases exec_rd_or_writeBus i s with ⟨a, rfl⟩ | ⟨a, d, e⟩
  · obtain rfl := next_inj.1 ((exec_rd a s).symm.trans h)
    exact State.respond_inj.2 (List.cons.inj hout).1
  · obtain rfl := next_inj.1 (e.symm.trans h)
    rcases writeBus_cases s a d with e | e | ⟨_, _, _, e⟩ | ⟨_, _, _, _, e⟩ <;> rw [e] at hout
    · cases hout
    · exact e
    · cases hout
    · cases hout

/-- Settles O23: reads and writes by the map, and any transaction that gets `buserr` by what it can do. -/
theorem busErrorExactlyByTheMap : Obligations.BusErrorExactlyByTheMap := fun s a d hc =>
  ⟨exec_rd_buserr_iff s a, exec_wr_buserr_iff hc a d, fun _ _ h hout => exec_buserr_keeps_state h hout⟩

end Sys2Proof.Machine
end

section
/-! SUPPORT. What a failed command leaves (60_exceptions.md R183 to R188), and the block with nothing to do (R198). -/

namespace Sys2Proof.Machine

/-- Settles O7: of the five things a step can do, four take an event. -/
theorem idleStepKeepsTheState : Obligations.IdleStepKeepsTheState := by
  intro s hidle
  rcases step_cases s with ⟨_, e⟩ | ⟨_, _, h, _⟩ | ⟨_, h, _⟩ | ⟨_, _, h, _⟩ | ⟨_, h, _⟩
  · exact e
  all_goals rw [hidle] at h; cases h

/-! ### The causes tested before the scan -/

/-- Once both checks have passed, `ENC` ends `OK` (R118). -/
theorem encCommand_scan_kind {s : State} (hfit : s.off.toNat + s.len.toNat ≤ s.config.cap)
    (h4 : s.len.toNat % 4 = 0) : (encCommand s).kind = .ok := by
  rw [encCommand_scan s hfit h4, State.finish_kind]

/-- Once both checks have passed, `DEC` ends `OK` or `InvalidCharacter`, whatever the capacity (R141). -/
theorem decCommand_scan_kind {s : State} (hfit : s.off.toNat + s.len.toNat ≤ s.config.cap)
    (h5 : s.len.toNat % 5 = 0) : (decCommand s).kind = .ok ∨ (decCommand s).kind = .invalidCharacter := by
  rw [decCommand_scan s hfit h5, decodeEnd]
  rcases decodeScan_frame s.len.toNat s.prologue with ⟨hrun, _⟩ | ⟨hstop, _, _, _, _, e⟩
  · exact .inl (by rw [hrun]; rfl)
  · exact .inr (by rw [hstop, e]; rfl)

/-- `ENC` and `DEC` up to their scans, in any state: refused, or a length that is no multiple of the group, or one of
the two outcomes a scan can have (R184, R185, R187). -/
theorem exec_codec_cases {i : Instr} {m : Word} (hi : (i = .enc ∧ m = 4) ∨ (i = .dec ∧ m = 5)) (s : State) :
    ∃ t, exec i s = .next (t.respond .ack) ∧
      ((s.config.cap < s.off.toNat + s.len.toNat ∧ t = s.prologue.raise .refused) ∨
       (s.off.toNat + s.len.toNat ≤ s.config.cap ∧ s.len.toNat % m.toNat ≠ 0 ∧
        t = s.prologue.raise (.invalidLength m)) ∨
       (s.off.toNat + s.len.toNat ≤ s.config.cap ∧ s.len.toNat % m.toNat = 0 ∧
        (t.kind = .ok ∨ t.kind = .invalidCharacter))) := by
  have hsplit := Nat.lt_or_ge s.config.cap (s.off.toNat + s.len.toNat)
  rcases hi with ⟨rfl, rfl⟩ | ⟨rfl, rfl⟩
  · refine ⟨_, exec_enc s, hsplit.imp (fun h => ⟨h, encCommand_refused s h⟩) fun hfit => ?_⟩
    by_cases h4 : s.len.toNat % 4 = 0
    · exact .inr ⟨hfit, h4, .inl (encCommand_scan_kind hfit h4)⟩
    · exact .inl ⟨hfit, h4, encCommand_length s hfit h4⟩
  · refine ⟨_, exec_dec s, hsplit.imp (fun h => ⟨h, decCommand_refused s h⟩) fun hfit => ?_⟩
    by_cases h5 : s.len.toNat % 5 = 0
    · exact .inr ⟨hfit, h5, decCommand_scan_kind hfit h5⟩
    · exact .inl ⟨hfit, h5, decCommand_length s hfit h5⟩

/-- Settles O30: only the first of the causes of `ENC` and `DEC` refuses. -/
theorem refusedExactlyWhenTheViewDoesNotFit : Obligations.RefusedExactlyWhenTheViewDoesNotFit := by
  intro s i hi
  obtain ⟨m, him⟩ : ∃ m : Word, (i = .enc ∧ m = 4) ∨ (i = .dec ∧ m = 5) := by
    rcases hi with rfl | rfl
    · exact ⟨4, .inl ⟨rfl, rfl⟩⟩
    · exact ⟨5, .inr ⟨rfl, rfl⟩⟩
  obtain ⟨t, e, ⟨hover, rfl⟩ | ⟨hfit, _, rfl⟩ | ⟨hfit, _, hkind⟩⟩ := exec_codec_cases him s <;> refine ⟨_, e, ?_⟩
  · exact ⟨iff_of_true rfl hover, fun _ => rfl⟩
  · exact ⟨iff_of_false nofun hfit.not_gt, fun h => absurd h hfit.not_gt⟩
  · have hne : t.kind ≠ .refused := by rcases hkind with h | h <;> rw [h] <;> nofun
    exact ⟨iff_of_false hne hfit.not_gt, fun h => absurd h hfit.not_gt⟩

/-- Settles O31: only the second of the causes of `ENC` and `DEC` ends `InvalidLength`. -/
theorem invalidLengthExactlyAndItsRecord : Obligations.InvalidLengthExactlyAndItsRecord := by
  intro s i m him
  obtain ⟨t, e, ⟨hover, rfl⟩ | ⟨hfit, hlen, rfl⟩ | ⟨_, hlen, hkind⟩⟩ := exec_codec_cases him s <;> refine ⟨_, e, ?_⟩
  · exact ⟨iff_of_false nofun fun h => absurd hover h.1.not_gt, nofun⟩
  · exact ⟨iff_of_true rfl ⟨hfit, hlen⟩, fun _ => rfl⟩
  · have hne : t.kind ≠ .invalidLength := by rcases hkind with h | h <;> rw [h] <;> nofun
    exact ⟨iff_of_false hne fun h => h.2 hlen, fun h => absurd h hne⟩

/-! ### The order of the causes -/

theorem encCommand_kind (s : State) :
    (encCommand s).kind = if s.config.cap < s.off.toNat + s.len.toNat then .refused
      else if s.len.toNat % 4 ≠ 0 then .invalidLength else .ok := by
  split_ifs with hover hlen
  · rw [encCommand_refused s hover]
    rfl
  · rw [encCommand_length s (Nat.le_of_not_lt hover) hlen]
    rfl
  · exact encCommand_scan_kind (Nat.le_of_not_lt hover) (not_not.1 hlen)

theorem chrofCommand_kind (s : State) :
    (chrofCommand s).kind = if 84 < s.arg.toNat then .refused else .ok := by
  rw [chrofCommand_eq, apply_ite State.kind]
  rfl

/-- Settles O32, each command by its causes in order. -/
theorem outcomeByPriority : Obligations.OutcomeByPriority := by
  intro s hc
  refine ⟨fun d hd => ⟨_, reservedCommandWordIsRefused s d hd, rfl⟩, ⟨_, exec_enc s, encCommand_kind s⟩,
    ⟨_, exec_dec s, fun hover => ?_, fun hfit hlen => ?_, fun hfit h5 hbad => ?_, fun hfit h5 hall => ?_⟩,
    ⟨_, exec_chrof s, chrofCommand_kind s⟩, ⟨_, exec_valof s, by rw [valofCommand_eq]; rfl⟩⟩
  · rw [decCommand_refused s hover]
    rfl
  · rw [decCommand_length s hfit hlen]
    rfl
  · obtain ⟨p, hp, hinvalid, hbefore⟩ := (first_invalid s).resolve_left hbad
    obtain ⟨t, hat, e⟩ := decCommand_invalid s p hc hfit h5 hp hbefore hinvalid
    rw [e]
    exact ⟨rfl, p, hp, hat.epos_toNat, hinvalid, hbefore⟩
  · obtain ⟨t, _, e⟩ := decCommand_ok s hc hfit h5 hall
    rw [e]
    rfl

/-! ### What a failed command leaves -/

/-- `t` holds no result, and of the records of R180 only the one of its own outcome, made of the input of `s`. -/
structure State.OnlyFailureRecord (s t : State) : Prop where
  olen : t.olen = 0
  res : t.res = ⟨0, false⟩
  length : t.kind = .invalidLength → t.elen = s.len ∧ (t.emult = 4 ∨ t.emult = 5) ∧ t.echar = 0 ∧ t.epos = 0
  character : t.kind = .invalidCharacter → t.elen = 0 ∧ t.emult = 0 ∧
    ∃ k < s.len.toNat, t.echar = s.viewChar k ∧ t.epos.toNat = k + 1 ∧ valueOf (s.viewChar k) = none
  refused : t.kind = .refused → t.NoRecord

theorem onlyFailureRecord_refused (s : State) : s.OnlyFailureRecord (s.prologue.raise .refused) :=
  ⟨rfl, rfl, nofun, nofun, fun _ => ⟨rfl, rfl, rfl, rfl⟩⟩

theorem onlyFailureRecord_length (s : State) {m : Word} (hm : m = 4 ∨ m = 5) :
    s.OnlyFailureRecord (s.prologue.raise (.invalidLength m)) :=
  ⟨rfl, rfl, fun _ => ⟨rfl, hm, rfl, rfl⟩, nofun, nofun⟩

/-- The record latched at character `p` of the view (R133, R186). -/
theorem onlyFailureRecord_latchInvalid {s t : State} {p : Nat} (hat : DecoderAt s.prologue p t)
    (hp : p < s.len.toNat) (hbad : valueOf (s.viewChar p) = none) :
    s.OnlyFailureRecord (latchInvalid t (s.viewChar p)) := by
  have hepos := hat.epos_toNat
  obtain ⟨_, _, rfl⟩ := hat.frame
  exact ⟨rfl, rfl, nofun, fun _ => ⟨rfl, rfl, p, hp, rfl, hepos, hbad⟩, nofun⟩

theorem encCommand_ok_or_record {s : State} (hc : s.config.Legal) :
    (encCommand s).kind = .ok ∨ s.OnlyFailureRecord (encCommand s) := by
  rcases encCommand_cases s hc with ⟨_, e⟩ | ⟨_, _, e⟩ | ⟨_, _, _, _, e⟩ <;> rw [e]
  · exact .inr (onlyFailureRecord_refused s)
  · exact .inr (onlyFailureRecord_length s (.inl rfl))
  · exact .inl rfl

theorem decCommand_ok_or_record {s : State} (hc : s.config.Legal) :
    (decCommand s).kind = .ok ∨ s.OnlyFailureRecord (decCommand s) := by
  rcases decCommand_cases s hc with
    ⟨_, e⟩ | ⟨_, _, e⟩ | ⟨_, _, _, _, _, e⟩ | ⟨_, _, p, hp, hbad, _, t, hat, e⟩ <;> rw [e]
  · exact .inr (onlyFailureRecord_refused s)
  · exact .inr (onlyFailureRecord_length s (.inr rfl))
  · exact .inl rfl
  · exact .inr (onlyFailureRecord_latchInvalid hat hp hbad)

theorem chrofCommand_ok_or_record (s : State) :
    (chrofCommand s).kind = .ok ∨ s.OnlyFailureRecord (chrofCommand s) := by
  rw [chrofCommand_eq]
  split
  · exact .inr (onlyFailureRecord_refused s)
  · exact .inl rfl

/-- A write of any word to `CMD` ends `OK` or leaves only the record of its failure (R188). -/
theorem commandOf_ok_or_record {s : State} (hc : s.config.Legal) (d : Word) :
    (commandOf d s).kind = .ok ∨ s.OnlyFailureRecord (commandOf d s) := by
  rcases commandOf_cases d s with e | e | e | e | e <;> rw [e]
  · exact encCommand_ok_or_record hc
  · exact decCommand_ok_or_record hc
  · exact chrofCommand_ok_or_record s
  · exact .inl (by rw [valofCommand_eq]; rfl)
  · exact .inr (onlyFailureRecord_refused s)

/-- Settles O33: a command is a write to `CMD`, which keeps the input and leaves only its record; with `OLEN = 0` no
`OBUF` address answers. -/
theorem failureLeavesOnlyItsRecord : Obligations.FailureLeavesOnlyItsRecord := by
  intro s t i hc hi hexec hfail
  obtain ⟨d, e⟩ := exec_command (hi.imp_right (.imp_right (.imp_right .inr))) s
  obtain rfl := next_inj.1 (e.symm.trans hexec)
  obtain ⟨holen, hres, hlength, hcharacter, hrefused⟩ := (commandOf_ok_or_record hc d).resolve_left hfail
  refine ⟨(commandOf_keeps d s).1.respond .ack, holen, hres, fun _ hb => readBus_obuf_of_olen_zero holen hb,
    hlength, hcharacter, fun hk => ?_⟩
  obtain ⟨helen, hemult, hechar, hepos⟩ : (commandOf d s).NoRecord := hrefused hk
  exact ⟨helen, hemult, hechar, hepos⟩

end Sys2Proof.Machine
end

section
/-! SUPPORT. The numeral and the wording of the driver's message (60_exceptions.md R190). -/

namespace Sys2Proof.Machine

/-- The code point of a decimal digit. -/
theorem decimalDigit_toNat {d : Nat} (h : d < 10) : (BitVec.ofNat 21 (0x30 + d) : CharCell).toNat = 0x30 + d := by
  rw [BitVec.toNat_ofNat]
  omega

/-- A numeral is written in decimal digits only (R190). -/
theorem decimalDigits_bounds (fuel n : Nat) :
    ∀ c ∈ decimalDigits fuel n, 0x30 ≤ c.toNat ∧ c.toNat ≤ 0x39 := by
  have hdigit : ∀ d < 10, 0x30 ≤ (BitVec.ofNat 21 (0x30 + d) : CharCell).toNat ∧
      (BitVec.ofNat 21 (0x30 + d) : CharCell).toNat ≤ 0x39 := fun d hd => by
    rw [decimalDigit_toNat hd]
    omega
  induction fuel generalizing n with
  | zero => exact List.forall_mem_nil _
  | succ fuel ih =>
    rw [decimalDigits]
    split
    · next hn => exact List.forall_mem_singleton.2 (hdigit n hn)
    · exact List.forall_mem_append.2 ⟨ih _, List.forall_mem_singleton.2 (hdigit _ (Nat.mod_lt _ (by decide)))⟩

/-- The value of a list of decimal digits, the most significant first. -/
def decimalValue (cs : List CharCell) : Nat := cs.foldl (fun n c => n * 10 + (c.toNat - 0x30)) 0

theorem decimalValue_append_digit (cs : List CharCell) {d : Nat} (h : d < 10) :
    decimalValue (cs ++ [BitVec.ofNat 21 (0x30 + d)]) = decimalValue cs * 10 + d := by
  rw [decimalValue, List.foldl_append, List.foldl_cons, List.foldl_nil, decimalDigit_toNat h, Nat.add_sub_cancel_left]
  rfl

/-- The numeral read back is the number (R190). -/
theorem decimalValue_decimalDigits {fuel n : Nat} (h : n < 10 ^ fuel) : decimalValue (decimalDigits fuel n) = n := by
  induction fuel generalizing n with
  | zero => exact (Nat.lt_one_iff.1 h).symm
  | succ fuel ih =>
    rw [decimalDigits]
    split
    · next hn => exact (decimalValue_append_digit [] hn).trans (Nat.zero_add n)
    · rw [decimalValue_append_digit _ (Nat.mod_lt _ (by decide)), ih (by omega)]
      exact Nat.div_add_mod' n 10

/-- The numeral of a number that is not 0 starts with a digit that is not 0 (R190). -/
theorem decimalDigits_head? {fuel n : Nat} (h0 : n ≠ 0) (h : n < 10 ^ fuel) :
    ∃ d, 1 ≤ d ∧ d < 10 ∧ (decimalDigits fuel n).head? = some (BitVec.ofNat 21 (0x30 + d)) := by
  induction fuel generalizing n with
  | zero => exact absurd (Nat.lt_one_iff.1 h) h0
  | succ fuel ih =>
    rw [decimalDigits]
    split
    · next hn => exact ⟨n, Nat.pos_of_ne_zero h0, hn, rfl⟩
    · obtain ⟨d, hpos, hd, e⟩ := ih (n := n / 10) (by omega) (by omega)
      exact ⟨d, hpos, hd, by rw [List.head?_append, e]; rfl⟩

theorem decimalDigits_no_leading_zero {fuel n : Nat} (h0 : n ≠ 0) (h : n < 10 ^ fuel) :
    (decimalDigits fuel n).head? ≠ some 0x30 := by
  obtain ⟨d, hpos, hd, e⟩ := decimalDigits_head? h0 h
  intro hzero
  have hnum : 0x30 + d = 0x30 :=
    (decimalDigit_toNat hd).symm.trans (congrArg BitVec.toNat (Option.some.inj (e.symm.trans hzero)))
  omega

/-- Ten digits hold every 32-bit number. -/
theorem toNat_lt_ten_digits (p : Word) : p.toNat < 10 ^ 10 :=
  p.isLt.trans (by decide)

/-- Settles O59: the message is its definition, the four examples are computed, and the numeral is by its digits. -/
theorem messageHasTheFixedWording : Obligations.MessageHasTheFixedWording := by
  refine ⟨fun c p => ?_, by decide, by decide, by decide, by decide, fun p =>
    ⟨decimalDigits_bounds _ _, decimalValue_decimalDigits (toNat_lt_ten_digits p), fun hp =>
      decimalDigits_no_leading_zero (fun h => hp (BitVec.eq_of_toNat_eq h)) (toNat_lt_ten_digits p)⟩⟩
  simp only [invalidCharacterMessage, List.append_assoc, List.cons_append, List.nil_append]

end Sys2Proof.Machine
end

section
/-! SUPPORT. The three events that reset the block (70_reset_and_hazards.md R210, R211), and what the host can tell right
after one: nothing from an empty call (R213), and no table that needs initialising (R212). -/

namespace Sys2Proof.Machine

/-! ### The three events -/

theorem step_reset {s : State} {rest : List HostEvent} (h : s.input = .reset :: rest) :
    step s = .next (State.applyReset { s with input := rest }) := by
  simp only [step, State.takeEvent, h]

theorem step_resetDuringCommand {s : State} {d : Word} {rest : List HostEvent}
    (h : s.input = .resetDuringCommand d :: rest) :
    step s = .next (State.applyResetDuringCommand { s with input := rest }) := by
  simp only [step, State.takeEvent, h]

theorem step_powerOn {s : State} {rest : List HostEvent} (h : s.input = .powerOn :: rest) :
    step s = .next (State.applyPowerOn { s with input := rest }) := by
  simp only [step, State.takeEvent, h]

/-- Settles O8: the step takes the event, and reset writes the registers but not the buffers. -/
theorem resetClearsTheRegistersAndKeepsIbuf : Obligations.ResetClearsTheRegistersAndKeepsIbuf := fun _ _ h =>
  ⟨_, step_reset h, rfl, rfl, rfl, rfl, ⟨rfl, rfl, rfl, rfl⟩, rfl, rfl, rfl, State.ibufCell_congr rfl rfl, rfl, rfl⟩

/-- Settles O9: a command cut short is a reset that also makes `OBUF` unspecified, and nothing is answered;
no command writes `IBUF`. -/
theorem resetDuringACommandGivesNoAnswer : Obligations.ResetDuringACommandGivesNoAnswer := fun _ _ _ h =>
  ⟨_, step_resetDuringCommand h, rfl, rfl, rfl, rfl, ⟨rfl, rfl, rfl, rfl⟩, rfl, rfl, rfl,
    State.ibufCell_congr rfl rfl, rfl, rfl⟩

/-- Settles O10: power-on is a reset that also empties the listings of written cells. -/
theorem powerOnForgetsTheBuffers : Obligations.PowerOnForgetsTheBuffers := fun _ _ h =>
  ⟨_, step_powerOn h, rfl, rfl, rfl, rfl, ⟨rfl, rfl, rfl, rfl⟩, rfl, rfl, rfl, fun _ => rfl, fun _ => rfl, rfl, rfl⟩

/-! ### An empty call after reset -/

/-- With no result, no record and `KIND = 0` to begin with, an empty call changes only working registers. -/
theorem State.Cleared.emptyCall_eq {s : State} (h : s.Cleared) (hk : s.kind = .ok) :
    s.prologue.beginScan.finish 0 = { s with work := s.beginScan.work } := by
  obtain ⟨helen, hemult, hechar, hepos⟩ := h.noRecord
  rw [hk, h.olen, helen, hemult, hechar, hepos, h.res]
  rfl

/-- No read looks at the working registers (R38, R160). -/
theorem State.readBus_setWork (s : State) (w : Work) (a : BusAddr) :
    ({ s with work := w } : State).readBus a = s.readBus a := rfl

/-- Settles O35: both commands are the empty call, and reset leaves nothing for it to clear. -/
theorem resetLooksLikeAnEmptyCall : Obligations.ResetLooksLikeAnEmptyCall := by
  have hread (a : BusAddr) :
      ((State.reset.prologue.beginScan.finish 0).respond .ack).readBus a = State.reset.readBus a := by
    rw [State.readBus_respond, State.reset_cleared.emptyCall_eq rfl, State.readBus_setWork]
  rintro i (rfl | rfl)
  · exact ⟨_, exec_enc _, by rw [encCommand_empty rfl (Nat.zero_le _)]; exact hread⟩
  · exact ⟨_, exec_dec _, by rw [decCommand_empty rfl (Nat.zero_le _)]; exact hread⟩

/-! ### The tables after reset -/

theorem resOfDigit_zero_word : (resOfDigit 0).word = 0x130 := by decide

theorem resOfChar_of_not_found {c : CharCell} (h : valueOf c = none) : resOfChar c = ⟨0, false⟩ := by
  rw [resOfChar, h]

/-- Settles O42: `ARG` is 0 after reset, digit 0 is `'0'`, and U+0000 lies below every code of the alphabet. -/
theorem tablesAnswerRightAfterReset : Obligations.TablesAnswerRightAfterReset := by
  refine ⟨⟨_, exec_chrof _, ?_⟩, ⟨_, exec_valof _, ?_⟩⟩
  · rw [chrofCommand_eq, if_neg (by decide)]
    exact ⟨rfl, resOfDigit_zero_word⟩
  · rw [valofCommand_eq, if_pos (by decide), resOfChar_of_not_found (valueOf_eq_none_of_unprintable (.inl (by decide)))]
    exact ⟨rfl, rfl⟩

end Sys2Proof.Machine
end
